-- ==== Sys2Proof/Word.lean ====
section
/-! DEFINITION. The byte and the two extensions of the spec's notation (00_scope.md R7, R9). -/

namespace Sys2Proof

/-- One cell of a buffer: 8 bits, bit 7 the most significant (R7). -/
abbrev Byte := BitVec 8

/-- One 32-bit word of the wire format (R12). -/
abbrev Word := BitVec 32

/-- `zext_N(v)` of R9: the value is unchanged. -/
abbrev zext {w : Nat} (n : Nat) (v : BitVec w) : BitVec n := v.setWidth n

/-- `sext_N(v)` of R9, "defined for completeness, used by no rule". -/
abbrev sext {w : Nat} (n : Nat) (v : BitVec w) : BitVec n := v.signExtend n

end Sys2Proof
end

