-- ==== Sys2Proof/Syntax.lean ====
section
/-! DEFINITION. The instructions: one constructor per row of spec/opcode_table.json (30_encoding.md R120): nine commands, seven reserved
command codes (R115), the header words by packet type (R101, R102, R114) and the five field words (R105 to R110). -/

namespace Sys2Proof

/-- The 26 fields of a trailer word, from the most significant bit down (10_state.md R42, 30_encoding.md R110): twelve enables,
twelve indicators, the count enable and the count. -/
structure TrailerFields where
  calibratedTimeEn     : Bool
  validDataEn          : Bool
  referenceLockEn      : Bool
  agcMgcEn             : Bool
  detectedSignalEn     : Bool
  spectralInversionEn  : Bool
  overrangeEn          : Bool
  sampleLossEn         : Bool
  userDefined1En       : Bool
  userDefined2En       : Bool
  userDefined3En       : Bool
  userDefined4En       : Bool
  calibratedTimeInd    : Bool
  validDataInd         : Bool
  referenceLockInd     : Bool
  agcMgcInd            : Bool
  detectedSignalInd    : Bool
  spectralInversionInd : Bool
  overrangeInd         : Bool
  sampleLossInd        : Bool
  userDefined1Ind      : Bool
  userDefined2Ind      : Bool
  userDefined3Ind      : Bool
  userDefined4Ind      : Bool
  contextCountEn       : Bool
  contextCount         : BitVec 7
deriving DecidableEq, Repr

/-- Where a word stands. A command is a value written to CMD; the words of a packet are told apart by their place in it, "not by
[their] own bits" (R111, R120). -/
inductive Position where
  | command
  | header
  | streamId
  | classId
  | tsiValue
  | tsfValue
  | trailer
deriving DecidableEq, Repr

/-- One constructor per row of the opcode table. The operands of a header word are its fields of R101 but for the packet type, which
the row fixes, and the reserved bits, for which "the header value has no field" (42_header_codec.md R165). -/
inductive Instr where
  | nop
  | decHdr
  | encHdr
  | decCid
  | encCid
  | decTrl
  | encTrl
  | decPkt
  | encPkt
  | reserved9
  | reservedA
  | reservedB
  | reservedC
  | reservedD
  | reservedE
  | reservedF
  | hdrData (c t : BitVec 1) (tsi tsf : BitVec 2) (cnt : BitVec 4) (size : BitVec 16)
  | hdrDataSid (c t : BitVec 1) (tsi tsf : BitVec 2) (cnt : BitVec 4) (size : BitVec 16)
  | hdrExtData (c t : BitVec 1) (tsi tsf : BitVec 2) (cnt : BitVec 4) (size : BitVec 16)
  | hdrExtDataSid (c t : BitVec 1) (tsi tsf : BitVec 2) (cnt : BitVec 4) (size : BitVec 16)
  | hdrContext (c t : BitVec 1) (tsi tsf : BitVec 2) (cnt : BitVec 4) (size : BitVec 16)
  | hdrExtContext (c t : BitVec 1) (tsi tsf : BitVec 2) (cnt : BitVec 4) (size : BitVec 16)
  | hdrIllegal67 (code : BitVec 4)
  | hdrIllegal815 (code : BitVec 4)
  | streamId (v : BitVec 32)
  | classId (oui : BitVec 32) (icc pcc : BitVec 16)
  | tsiValue (v : BitVec 32)
  | tsfValue (v : BitVec 64)
  | trailer (f : TrailerFields)
deriving DecidableEq, Repr

end Sys2Proof
end

