-- ==== Sys2Proof/Decode.lean ====
section
/-! DEFINITION. The encodings (30_encoding.md): byte order (20_memory.md R71, R72), the fields of the header and trailer words (R101,
R110), the decoder of every position, total on any bytes, and after it the encoder. -/

namespace Sys2Proof

/-! ## Byte order -/

/-- `MemRead`'s value of a byte string, lowest address first: Σ b_i · 256^(n−1−i) (20_memory.md R72). -/
def beNat : List Byte → Nat
  | [] => 0
  | b :: bs => b.toNat * 256 ^ bs.length + beNat bs

/-- The n bytes `MemWrite` stores for v: byte i is v[8(n−1−i)+7 : 8(n−1−i)] (20_memory.md R72). -/
def beBytes : Nat → Nat → List Byte
  | 0, _ => []
  | n + 1, v => BitVec.ofNat 8 (v / 256 ^ n) :: beBytes n v

/-! ## The header word (R101) -/

/-- packet_type, word bits 31:28. -/
def hdrType (w : BitVec 32) : BitVec 4 := w.extractLsb' 28 4

/-- class_id_present, word bit 27. -/
def hdrClassId (w : BitVec 32) : BitVec 1 := w.extractLsb' 27 1

/-- trailer_present, word bit 26. -/
def hdrTrailer (w : BitVec 32) : BitVec 1 := w.extractLsb' 26 1

/-- tsi_kind, word bits 23:22. -/
def hdrTsi (w : BitVec 32) : BitVec 2 := w.extractLsb' 22 2

/-- tsf_kind, word bits 21:20. -/
def hdrTsf (w : BitVec 32) : BitVec 2 := w.extractLsb' 20 2

/-- packet_count, word bits 19:16. -/
def hdrCount (w : BitVec 32) : BitVec 4 := w.extractLsb' 16 4

/-- packet_size, word bits 15:0, in 32-bit words. -/
def hdrSize (w : BitVec 32) : BitVec 16 := w.extractLsb' 0 16

/-- The header word `enc_header` writes (42_header_codec.md R161): the reserved bits 25:24 are 0 (R114, D18). -/
def headerWord (ty : BitVec 4) (c t : BitVec 1) (tsi tsf : BitVec 2) (cnt : BitVec 4) (size : BitVec 16) : BitVec 32 :=
  ty ++ c ++ t ++ 0#2 ++ tsi ++ tsf ++ cnt ++ size

/-! ## The trailer word (R110, R42) -/

/-- The 26 fields of a trailer word: the enable at bit 31 − k has its indicator at bit 19 − k (10_state.md R42). -/
def trailerFields (w : BitVec 32) : TrailerFields :=
  {
    calibratedTimeEn     := w.getLsbD 31
    validDataEn          := w.getLsbD 30
    referenceLockEn      := w.getLsbD 29
    agcMgcEn             := w.getLsbD 28
    detectedSignalEn     := w.getLsbD 27
    spectralInversionEn  := w.getLsbD 26
    overrangeEn          := w.getLsbD 25
    sampleLossEn         := w.getLsbD 24
    userDefined1En       := w.getLsbD 23
    userDefined2En       := w.getLsbD 22
    userDefined3En       := w.getLsbD 21
    userDefined4En       := w.getLsbD 20
    calibratedTimeInd    := w.getLsbD 19
    validDataInd         := w.getLsbD 18
    referenceLockInd     := w.getLsbD 17
    agcMgcInd            := w.getLsbD 16
    detectedSignalInd    := w.getLsbD 15
    spectralInversionInd := w.getLsbD 14
    overrangeInd         := w.getLsbD 13
    sampleLossInd        := w.getLsbD 12
    userDefined1Ind      := w.getLsbD 11
    userDefined2Ind      := w.getLsbD 10
    userDefined3Ind      := w.getLsbD 9
    userDefined4Ind      := w.getLsbD 8
    contextCountEn       := w.getLsbD 7
    contextCount         := w.extractLsb' 0 7
  }

/-- The trailer word of 26 fields, most significant first (10_state.md R42). -/
def trailerWord (f : TrailerFields) : BitVec 32 :=
    BitVec.ofBool f.calibratedTimeEn ++ BitVec.ofBool f.validDataEn ++ BitVec.ofBool f.referenceLockEn ++ BitVec.ofBool f.agcMgcEn ++
    BitVec.ofBool f.detectedSignalEn ++ BitVec.ofBool f.spectralInversionEn ++ BitVec.ofBool f.overrangeEn ++ BitVec.ofBool f.sampleLossEn ++
    BitVec.ofBool f.userDefined1En ++ BitVec.ofBool f.userDefined2En ++ BitVec.ofBool f.userDefined3En ++ BitVec.ofBool f.userDefined4En ++
    BitVec.ofBool f.calibratedTimeInd ++ BitVec.ofBool f.validDataInd ++ BitVec.ofBool f.referenceLockInd ++ BitVec.ofBool f.agcMgcInd ++
    BitVec.ofBool f.detectedSignalInd ++ BitVec.ofBool f.spectralInversionInd ++ BitVec.ofBool f.overrangeInd ++ BitVec.ofBool f.sampleLossInd ++
    BitVec.ofBool f.userDefined1Ind ++ BitVec.ofBool f.userDefined2Ind ++ BitVec.ofBool f.userDefined3Ind ++ BitVec.ofBool f.userDefined4Ind ++
    BitVec.ofBool f.contextCountEn ++ f.contextCount

/-! ## The decoder -/

/-- Why bytes are no instruction: fewer than the position's format needs. No other bytes are refused: the command dispatch is total
(46_control_commands.md R230), an illegal header word is a row of its own, and every field pattern is legal (R114). -/
inductive DecodeError where
  | tooFewBytes (missing : Nat)
deriving DecidableEq, Repr

/-- Bytes of a position's format (R100). A command is the value written to CMD, given as one byte (log 13, DESIGN CHOICE). -/
def Position.size : Position → Nat
  | .command => 1
  | .header | .streamId | .tsiValue | .trailer => 4
  | .classId | .tsfValue => 8

/-- Command dispatch: bits 3:0 of the value written to CMD select the command, the bits above are ignored (R115, R230). -/
def decodeCommand (v : Nat) : Instr :=
  match v % 16 with
  | 0x0 => .nop
  | 0x1 => .decHdr
  | 0x2 => .encHdr
  | 0x3 => .decCid
  | 0x4 => .encCid
  | 0x5 => .decTrl
  | 0x6 => .encTrl
  | 0x7 => .decPkt
  | 0x8 => .encPkt
  | 0x9 => .reserved9
  | 0xA => .reservedA
  | 0xB => .reservedB
  | 0xC => .reservedC
  | 0xD => .reservedD
  | 0xE => .reservedE
  | _ => .reservedF

/-- The header row a word belongs to, by bits 31:28 (R102). The reserved bits 25:24 are ignored (R114). -/
def decodeHeader (w : BitVec 32) : Instr :=
  let c := hdrClassId w
  let t := hdrTrailer w
  let tsi := hdrTsi w
  let tsf := hdrTsf w
  let cnt := hdrCount w
  let size := hdrSize w
  match (hdrType w).toNat with
  | 0 => .hdrData c t tsi tsf cnt size
  | 1 => .hdrDataSid c t tsi tsf cnt size
  | 2 => .hdrExtData c t tsi tsf cnt size
  | 3 => .hdrExtDataSid c t tsi tsf cnt size
  | 4 => .hdrContext c t tsi tsf cnt size
  | 5 => .hdrExtContext c t tsi tsf cnt size
  | 6 => .hdrIllegal67 (hdrType w)
  | 7 => .hdrIllegal67 (hdrType w)
  | _ => .hdrIllegal815 (hdrType w)

/-- The class identifier of its 64-bit big-endian quantity: oui, information class, packet class (R106, C6). -/
def decodeClassId (q : BitVec 64) : Instr :=
  .classId (q.extractLsb' 32 32) (q.extractLsb' 16 16) (q.extractLsb' 0 16)

/-- The instruction that the number of a position's bytes stands for, bit 0 the least significant (R120). -/
def decodeNumber (p : Position) (v : Nat) : Instr :=
  match p with
  | .command  => decodeCommand v
  | .header   => decodeHeader (BitVec.ofNat 32 v)
  | .streamId => .streamId (BitVec.ofNat 32 v)
  | .classId  => decodeClassId (BitVec.ofNat 64 v)
  | .tsiValue => .tsiValue (BitVec.ofNat 32 v)
  | .tsfValue => .tsfValue (BitVec.ofNat 64 v)
  | .trailer  => .trailer (trailerFields (BitVec.ofNat 32 v))

/-- The decoder: the instruction at the head of the bytes, and the bytes after it. -/
def decode (p : Position) (bs : List Byte) : Except DecodeError (Instr × List Byte) :=
  if bs.length < p.size then .error (.tooFewBytes (p.size - bs.length))
  else .ok (decodeNumber p (beNat (bs.take p.size)), bs.drop p.size)

/-! ## The encoder -/

/-- Where an instruction's word stands. -/
def Instr.position : Instr → Position
  | .nop | .decHdr | .encHdr | .decCid | .encCid | .decTrl | .encTrl | .decPkt | .encPkt => .command
  | .reserved9 | .reservedA | .reservedB | .reservedC | .reservedD | .reservedE | .reservedF => .command
  | .hdrData .. | .hdrDataSid .. | .hdrExtData .. | .hdrExtDataSid .. | .hdrContext .. | .hdrExtContext .. => .header
  | .hdrIllegal67 _ | .hdrIllegal815 _ => .header
  | .streamId _ => .streamId
  | .classId .. => .classId
  | .tsiValue _ => .tsiValue
  | .tsfValue _ => .tsfValue
  | .trailer _ => .trailer

/-- The number whose big-endian bytes are the instruction's word: the inverse of `decodeNumber`. The ignored bits of an illegal
header word are written 0. -/
def encodeNumber : Instr → Nat
  | .nop => 0x0
  | .decHdr => 0x1
  | .encHdr => 0x2
  | .decCid => 0x3
  | .encCid => 0x4
  | .decTrl => 0x5
  | .encTrl => 0x6
  | .decPkt => 0x7
  | .encPkt => 0x8
  | .reserved9 => 0x9
  | .reservedA => 0xA
  | .reservedB => 0xB
  | .reservedC => 0xC
  | .reservedD => 0xD
  | .reservedE => 0xE
  | .reservedF => 0xF
  | .hdrData c t tsi tsf cnt size => (headerWord 0#4 c t tsi tsf cnt size).toNat
  | .hdrDataSid c t tsi tsf cnt size => (headerWord 1#4 c t tsi tsf cnt size).toNat
  | .hdrExtData c t tsi tsf cnt size => (headerWord 2#4 c t tsi tsf cnt size).toNat
  | .hdrExtDataSid c t tsi tsf cnt size => (headerWord 3#4 c t tsi tsf cnt size).toNat
  | .hdrContext c t tsi tsf cnt size => (headerWord 4#4 c t tsi tsf cnt size).toNat
  | .hdrExtContext c t tsi tsf cnt size => (headerWord 5#4 c t tsi tsf cnt size).toNat
  | .hdrIllegal67 code => (headerWord code 0#1 0#1 0#2 0#2 0#4 0#16).toNat
  | .hdrIllegal815 code => (headerWord code 0#1 0#1 0#2 0#2 0#4 0#16).toNat
  | .streamId v => v.toNat
  | .classId oui icc pcc => (oui ++ icc ++ pcc : BitVec 64).toNat
  | .tsiValue v => v.toNat
  | .tsfValue v => v.toNat
  | .trailer f => (trailerWord f).toNat

/-- The encoder: the bytes of a well-formed instruction. -/
def encode (i : Instr) : List Byte := beBytes i.position.size (encodeNumber i)

/-! ## The header rows of the table, and the host's reading of a table word -/

/-- Match and mask of a header row, as spec/opcode_table.json has them. -/
structure HeaderRow where
  value : BitVec 32
  mask  : BitVec 32
deriving DecidableEq, Repr

/-- The eight rows of format HDR (R120), in the table's order. -/
def headerRows : List HeaderRow :=
  [⟨0x00000000#32, 0xF0000000#32⟩, ⟨0x10000000#32, 0xF0000000#32⟩, ⟨0x20000000#32, 0xF0000000#32⟩,
   ⟨0x30000000#32, 0xF0000000#32⟩, ⟨0x40000000#32, 0xF0000000#32⟩, ⟨0x50000000#32, 0xF0000000#32⟩,
   ⟨0x60000000#32, 0xE0000000#32⟩, ⟨0x80000000#32, 0x80000000#32⟩]

/-- Whether a word belongs to a row. -/
def HeaderRow.matches (r : HeaderRow) (w : BitVec 32) : Bool := w &&& r.mask == r.value

/-- Where a header instruction's row stands in `headerRows`. -/
def Instr.headerRow : Instr → Option Nat
  | .hdrData .. => some 0
  | .hdrDataSid .. => some 1
  | .hdrExtData .. => some 2
  | .hdrExtDataSid .. => some 3
  | .hdrContext .. => some 4
  | .hdrExtContext .. => some 5
  | .hdrIllegal67 _ => some 6
  | .hdrIllegal815 _ => some 7
  | _ => none

/-- The position a table word of so many bits is read at. The mask-0 rows are selected by position only (R120), which a bare word does
not carry: 32 bits are read as a header word, 64 bits as a class identifier (log 6, DESIGN CHOICE). -/
def tablePosition (nbits : Nat) : Option Position :=
  if nbits = 0 then none
  else if nbits ≤ 8 then some .command
  else if nbits = 32 then some .header
  else if nbits = 64 then some .classId
  else none

/-- The instruction the decoder reads from a table word, laid out big-endian as the wire has it. -/
def decodeTableWord (nbits w : Nat) : Option Instr :=
  match tablePosition nbits with
  | none => none
  | some p =>
    match decode p (beBytes p.size w) with
    | .ok (i, _) => some i
    | .error _ => none

end Sys2Proof
end

