-- ==== Sys2Proof/Config.lean ====
section
/-! DEFINITION. The parameters of the block (00_scope.md R6), its two byte memories by name, and the one free value: what a
buffer cell holds that nothing has written (70_reset_and_hazards.md R272). -/

namespace Sys2Proof

/-- The two address spaces the block reaches (20_memory.md R70). They never alias. -/
inductive BufId where
  | ibuf
  | obuf
deriving DecidableEq, Repr

namespace Config

/-- LEN_W of the instance that `State.reset` describes: the spec's default (R6, D4). The model itself is written for every LEN_W:
`State.lenW` carries it (log 1, DESIGN CHOICE). -/
def lenW : Nat := 32

/-- The constraint on LEN_W (R6). -/
def minLenW : Nat := 19

/-- WORD_BYTES (R6). -/
def wordBytes : Nat := 4

/-- The largest packet_size, SIZE_W = 16 bits (R6). -/
def maxWords : Nat := 65535

/-- MAX_PACKET_BYTES (R6). -/
def maxPacketBytes : Nat := 262140

/-- MAX_OVERHEAD_BYTES (R6). -/
def maxOverheadBytes : Nat := 32

/-- MAX_PAYLOAD_BYTES (R6). -/
def maxPayloadBytes : Nat := 262136

/-- INFO_W, the width of ERR_INFO (R6). -/
def infoW (lenW : Nat) : Nat := lenW + 1

/-- IBUF_BYTES and OBUF_BYTES (R6). -/
def bufBytes (lenW : Nat) : Nat := 2 ^ lenW

/-- The byte in a cell that nothing has written: unspecified, the same at every read until written (R272, U7, D37).
The second argument is the memory's epoch, which only a reset that cuts a command advances, for OBUF (R270, U19; log 8), the third the
address.
FREE VALUE: no body, so nothing can be proved of it (log 2; safe). -/
opaque unwrittenByte : BufId → Nat → Nat → Byte

end Config
end Sys2Proof
end

