-- ==== Sys2Proof/Machine/State.lean ====
section
/-! DEFINITION. The state of one VRT-PA instance (10_state.md R20), the error kinds (60_exceptions.md R240), the host's transactions
(30_encoding.md R117), and the machine after reset (70_reset_and_hazards.md R271). -/

namespace Sys2Proof.Machine

/-! ## Why a step can stop -/

/-- The reasons a step ends in a fault. No command and no wire row ends so: an error of the spec is a status (R246). -/
inductive Fault where
  /-- Raised by a host byte access of a buffer at an address of 2^LEN_W or above: R36 and R37 give the buffers 2^LEN_W cells, so no
  such cell exists. SAFE: the model stops where the spec gives nothing (log 10). -/
  | noSuchCell (buffer : BufId) (addr : Nat)
deriving DecidableEq, Repr

/-- The reasons a step is refused. -/
inductive Refusal where
  /-- Raised by an arm of `exec` that has no meaning yet; no arm is left so. SAFE. -/
  | notModelled (mnemonic : String)
  /-- Raised by a run in which a foreign master changes IBUF or an operand register while a command executes: "A model gives such a run
  no meaning (it refuses it)" (R279, U8). SAFE (log 9). -/
  | foreignMaster
deriving DecidableEq, Repr

/-! ## Errors of a command -/

/-- The error kinds (R240). -/
inductive ErrKind where
  | invalidEnumCode
  | insufficientInput
  | outputTooSmall
  | integerConversionOverflow
  | illegalCommand
deriving DecidableEq, Repr

/-- What `raise Kind(field, info)` carries (00_scope.md R9): `field` is the ERR_FIELD code, `info` the ERR_INFO value. -/
structure CmdError where
  kind  : ErrKind
  field : BitVec 2
  info  : Nat
deriving DecidableEq, Repr

/-! ## The state -/

/-- The sixteen packet registers: one value of the source's VrtPacket (10_state.md R21). PAY_OFF and PAY_LEN are LEN_W-bit
registers, held as natural numbers because LEN_W is open (log 1). -/
structure Packet where
  pktType    : BitVec 4
  cidPresent : BitVec 1
  trlPresent : BitVec 1
  tsiKind    : BitVec 2
  tsfKind    : BitVec 2
  pktCount   : BitVec 4
  pktSize    : BitVec 16
  streamId   : BitVec 32
  classOui   : BitVec 32
  classIcc   : BitVec 16
  classPcc   : BitVec 16
  tsiVal     : BitVec 32
  tsfVal     : BitVec 64
  payOff     : Nat
  payLen     : Nat
  trailer    : BitVec 32
deriving DecidableEq, Repr

/-- Every packet register 0 (R271). -/
def Packet.zero : Packet :=
  { pktType := 0, cidPresent := 0, trlPresent := 0, tsiKind := 0, tsfKind := 0, pktCount := 0, pktSize := 0, streamId := 0,
    classOui := 0, classIcc := 0, classPcc := 0, tsiVal := 0, tsfVal := 0, payOff := 0, payLen := 0, trailer := 0 }

/-- The field sequencer inside one command: the command's code, the byte cursor (10_state.md R24), the running payload length (R25)
and the values decoded so far (the locals of 44_packet_parser.md R180). -/
structure Seq where
  op  : BitVec 4
  cur : Nat
  rem : Nat
  pkt : Packet
deriving DecidableEq, Repr

/-- One buffer (R36, R37): the cells written, addresses strictly rising; an address that is not listed holds the free value
of the memory's epoch (log 2). -/
structure Memory where
  epoch : Nat
  cells : List Host.Cell
deriving DecidableEq, Repr

/-- What the outside can do to the block (30_encoding.md R117, 70_reset_and_hazards.md R270, R279, R283). -/
inductive Txn where
  /-- (W, REG, index, data). A write of index 0x00 issues a command (46_control_commands.md R234). -/
  | writeReg (index data : Nat)
  /-- (R, REG, index). -/
  | readReg (index : Nat)
  /-- (W, IBUF or OBUF, address, byte). -/
  | writeByte (buffer : BufId) (addr : Nat) (b : Byte)
  /-- (R, IBUF or OBUF, address). -/
  | readByte (buffer : BufId) (addr : Nat)
  /-- The reset input while no command executes. -/
  | reset
  /-- The reset input during the command that this write of CMD issued (R270). -/
  | resetDuring (data : Nat)
  /-- A foreign master writes IBUF or an operand register during the command that this write of CMD issued (R279). -/
  | foreignDuring (data : Nat)
deriving DecidableEq, Repr

/-- The state. The six stored control and status registers (R27 to R32) stand beside the packet registers and the two buffers; `lenW`,
`host` and `rdata` are the model's own (log 1, log 3, log 4); `seq` is absent between commands (R24, log 5). -/
structure State where
  lenW    : Nat
  pkt     : Packet
  status  : BitVec 32
  errInfo : Nat
  xferLen : Nat
  remLen  : Nat
  inLen   : Nat
  outCap  : Nat
  ibuf    : Memory
  obuf    : Memory
  seq     : Option Seq
  host    : List Txn
  rdata   : Nat
deriving DecidableEq, Repr

/-- The machine right after reset (R271, R39): every register 0, nothing written to either buffer (R272), no command in progress. The
host has no transaction left to issue (log 3). -/
def State.reset : State :=
  { lenW := Config.lenW, pkt := Packet.zero, status := 0, errInfo := 0, xferLen := 0, remLen := 0, inLen := 0, outCap := 0,
    ibuf := { epoch := 0, cells := [] }, obuf := { epoch := 0, cells := [] }, seq := none, host := [], rdata := 0 }

end Sys2Proof.Machine
end

