-- ==== Sys2Proof/Machine/Flags.lean ====
section
/-! DEFINITION. The STATUS register (10_state.md R27) and the ERR_KIND codes (60_exceptions.md R240). -/

namespace Sys2Proof.Machine

/-- ERR_KIND codes (R240); 0 is "none", 5 and 6 are never produced. -/
def errCode : ErrKind → BitVec 3
  | .invalidEnumCode => 1#3
  | .insufficientInput => 2#3
  | .outputTooSmall => 3#3
  | .integerConversionOverflow => 4#3
  | .illegalCommand => 7#3

/-- ERR_FIELD codes of InvalidEnumCode (R27). -/
def fieldPacketType : BitVec 2 := 1#2
def fieldTsiKind : BitVec 2 := 2#2
def fieldTsfKind : BitVec 2 := 3#2

/-- STATUS of a completed command (R27): 31:14 reserved, 13:10 LAST_OP, 9:8 ERR_FIELD, 7 reserved, 6:4 ERR_KIND, 3:2 reserved, 1 OK,
0 DONE, which every completion sets. -/
def packStatus (ok : Bool) (kind : BitVec 3) (field : BitVec 2) (op : BitVec 4) : BitVec 32 :=
  0#18 ++ op ++ field ++ 0#1 ++ kind ++ 0#2 ++ BitVec.ofBool ok ++ 1#1

/-- STATUS.DONE, bit 0. -/
def statusDone (w : BitVec 32) : Bool := w.getLsbD 0

/-- STATUS.OK, bit 1. -/
def statusOk (w : BitVec 32) : Bool := w.getLsbD 1

/-- STATUS.ERR_KIND, bits 6:4. -/
def statusKind (w : BitVec 32) : BitVec 3 := w.extractLsb' 4 3

/-- STATUS.ERR_FIELD, bits 9:8. -/
def statusField (w : BitVec 32) : BitVec 2 := w.extractLsb' 8 2

/-- STATUS.LAST_OP, bits 13:10. -/
def statusLastOp (w : BitVec 32) : BitVec 4 := w.extractLsb' 10 4

/-- The reserved bits of STATUS: 3:2, 7 and 31:14. -/
def statusReservedMask : BitVec 32 := 0xFFFFC08C#32

/-! The errors the rules raise, with the parameters R240 gives each kind. -/

/-- InvalidEnumCode(field, raw_value). -/
def invalidEnumCode (field : BitVec 2) (raw : Nat) : CmdError := ⟨.invalidEnumCode, field, raw⟩

/-- InsufficientInput(bytes_needed). -/
def insufficientInput (needed : Nat) : CmdError := ⟨.insufficientInput, 0#2, needed⟩

/-- OutputTooSmall has no parameter. -/
def outputTooSmall : CmdError := ⟨.outputTooSmall, 0#2, 0⟩

/-- IntegerConversionOverflow has no parameter. -/
def integerConversionOverflow : CmdError := ⟨.integerConversionOverflow, 0#2, 0⟩

/-- IllegalCommand: ERR_INFO is the 4-bit code (R245). -/
def illegalCommand (code : BitVec 4) : CmdError := ⟨.illegalCommand, 0#2, code.toNat⟩

end Sys2Proof.Machine
end

