-- ==== Sys2Proof/Machine/Operands.lean ====
section
/-! DEFINITION. The operands of the commands: the enumerated field codecs (40_enum_codecs.md), the conditional-field selects and PRESENT
(10_state.md R26), the overhead of a packet shape (44_packet_parser.md R183), and the register index map (10_state.md R34). -/

namespace Sys2Proof.Machine

/-! ## Enumerated field codecs (R140 to R147)

The decoders take any unsigned code, as the source's contract has it (C5); a variant is represented by its code. -/

/-- R140: codes 0 to 5 are the packet types, any other is refused with the raw value. -/
def decPacketType (c : Nat) : Except CmdError (BitVec 4) :=
  if c ≤ 5 then .ok (BitVec.ofNat 4 c) else .error (invalidEnumCode fieldPacketType c)

/-- R141. -/
def encPacketType (v : BitVec 4) : BitVec 4 := v

/-- R142: the types that carry a stream identifier, data-with-stream-id (1) and extension-data-with-stream-id (3). -/
def carriesStreamId (v : BitVec 4) : Bool := v == 1#4 || v == 3#4

/-- R143; the failure arm cannot be reached from a 2-bit field. -/
def decTsiKind (c : Nat) : Except CmdError (BitVec 2) :=
  if c ≤ 3 then .ok (BitVec.ofNat 2 c) else .error (invalidEnumCode fieldTsiKind c)

/-- R144. -/
def encTsiKind (v : BitVec 2) : BitVec 2 := v

/-- R145; the failure arm cannot be reached from a 2-bit field. -/
def decTsfKind (c : Nat) : Except CmdError (BitVec 2) :=
  if c ≤ 3 then .ok (BitVec.ofNat 2 c) else .error (invalidEnumCode fieldTsfKind c)

/-- R146. -/
def encTsfKind (v : BitVec 2) : BitVec 2 := v

/-! ## The conditional-field mux -/

/-- S: a stream identifier is on the wire. -/
def selS (p : Packet) : Bool := carriesStreamId p.pktType

/-- C: a class identifier is on the wire. -/
def selC (p : Packet) : Bool := p.cidPresent == 1#1

/-- I: an integer timestamp is on the wire. -/
def selI (p : Packet) : Bool := p.tsiKind != 0#2

/-- F: a fractional timestamp is on the wire. -/
def selF (p : Packet) : Bool := p.tsfKind != 0#2

/-- T: a trailer is on the wire. -/
def selT (p : Packet) : Bool := p.trlPresent == 1#1

/-- PRESENT (R26): bit 0 S, bit 1 C, bit 2 I, bit 3 F, bit 4 T; it stores nothing. -/
def present (p : Packet) : BitVec 5 :=
  BitVec.ofBool (selT p) ++ BitVec.ofBool (selF p) ++ BitVec.ofBool (selI p) ++ BitVec.ofBool (selC p) ++ BitVec.ofBool (selS p)

/-- `n` bytes if a field is selected, none if it is not. -/
def widthIf (sel : Bool) (n : Nat) : Nat := if sel then n else 0

/-- Offsets of the optional fields and of the payload from the start of the packet (30_encoding.md R111). -/
def offClassId (p : Packet) : Nat := 4 + widthIf (selS p) 4
def offTsi (p : Packet) : Nat := offClassId p + widthIf (selC p) 8
def offTsf (p : Packet) : Nat := offTsi p + widthIf (selI p) 4
def offPayload (p : Packet) : Nat := offTsf p + widthIf (selF p) 8

/-- The bytes of a packet that are not payload: 4 + 4S + 8C + 4I + 8F + 4T (R183). -/
def overhead (p : Packet) : Nat := offPayload p + widthIf (selT p) 4

/-! ## The register index map (R34) -/

/-- The mapped registers. -/
inductive Reg where
  | cmd | status | errInfo | xferLen | remLen | inLen | outCap | present
  | pktType | cidPresent | trlPresent | tsiKind | tsfKind | pktCount | pktSize | streamId
  | classOui | classIcc | classPcc | tsiVal | tsfVal | payOff | payLen | trailer
deriving DecidableEq, Repr

/-- The register a host index selects; 0x08 to 0x0F and everything above 0x1F are unmapped (R34). -/
def regOfIndex : Nat → Option Reg
  | 0x00 => some .cmd
  | 0x01 => some .status
  | 0x02 => some .errInfo
  | 0x03 => some .xferLen
  | 0x04 => some .remLen
  | 0x05 => some .inLen
  | 0x06 => some .outCap
  | 0x07 => some .present
  | 0x10 => some .pktType
  | 0x11 => some .cidPresent
  | 0x12 => some .trlPresent
  | 0x13 => some .tsiKind
  | 0x14 => some .tsfKind
  | 0x15 => some .pktCount
  | 0x16 => some .pktSize
  | 0x17 => some .streamId
  | 0x18 => some .classOui
  | 0x19 => some .classIcc
  | 0x1A => some .classPcc
  | 0x1B => some .tsiVal
  | 0x1C => some .tsfVal
  | 0x1D => some .payOff
  | 0x1E => some .payLen
  | 0x1F => some .trailer
  | _ => none

/-- Width in bits of a register (R21, R26 to R33) for a given LEN_W. -/
def regWidth (lenW : Nat) : Reg → Nat
  | .cmd => 4
  | .status => 32
  | .errInfo => Config.infoW lenW
  | .xferLen | .remLen | .inLen | .outCap | .payOff | .payLen => lenW
  | .present => 5
  | .pktType | .pktCount => 4
  | .cidPresent | .trlPresent => 1
  | .tsiKind | .tsfKind => 2
  | .pktSize | .classIcc | .classPcc => 16
  | .streamId | .classOui | .tsiVal | .trailer => 32
  | .tsfVal => 64

/-- Whether a host write of the register stores something: the packet registers, IN_LEN and OUT_CAP (R21, R31, R32, R35). CMD stores
nothing: its write issues a command. -/
def regWritable : Reg → Bool
  | .cmd | .status | .errInfo | .xferLen | .remLen | .present => false
  | _ => true

end Sys2Proof.Machine
end

