-- ==== Sys2Proof/Machine/Ops.lean ====
section
/-! DEFINITION. The operations every meaning is built from: the two buffers (20_memory.md), the failure and the success of a command
(60_exceptions.md R246, R247), the field sequencer (10_state.md R24, R25; 44_packet_parser.md R180 to R191), the host's register access
(46_control_commands.md R233, R234) and the reset (70_reset_and_hazards.md R270 to R272). -/

namespace Sys2Proof.Machine

/-! ## A buffer's cells -/

/-- The byte written at an address, if one has been. -/
def findCell (a : Nat) : List Host.Cell → Option Byte
  | [] => none
  | (k, b) :: r => if k = a then some b else findCell a r

/-- Writes one cell, keeping the addresses strictly rising. -/
def insertCell (a : Nat) (b : Byte) : List Host.Cell → List Host.Cell
  | [] => [(a, b)]
  | (k, c) :: r => if a < k then (a, b) :: (k, c) :: r else if a = k then (a, b) :: r else (k, c) :: insertCell a b r

/-- Addresses strictly rising. -/
def risingCells : List Host.Cell → Bool
  | [] => true
  | (_, _) :: [] => true
  | (k, _) :: (k', c') :: r => decide (k < k') && risingCells ((k', c') :: r)

/-- The canonical form of a memory: addresses strictly rising. Every listed cell has been written and an unlisted one has not, so no
entry equals what an unlisted address holds (log 2). -/
def Memory.wf (m : Memory) : Bool := risingCells m.cells

/-- Every listed address is one of the 2^LEN_W cells (R36, R37). -/
def Memory.inRange (lenW : Nat) (m : Memory) : Bool := m.cells.all (fun c => decide (c.1 < 2 ^ lenW))

/-- The byte of one cell: what was written there last, or the free value of an unwritten cell (R84, R272). -/
def Memory.byte (b : BufId) (m : Memory) (a : Nat) : Byte := (findCell a m.cells).getD (Config.unwrittenByte b m.epoch a)

/-- A byte write (R84): a write stores exactly the byte written (R74). -/
def Memory.write (m : Memory) (a : Nat) (v : Byte) : Memory := { m with cells := insertCell a v m.cells }

/-- Bytes written from an address upward. -/
def Memory.writeBytes (m : Memory) (a : Nat) : List Byte → Memory
  | [] => m
  | v :: vs => (m.write a v).writeBytes (a + 1) vs

/-- One byte of IBUF. -/
def State.inByte (s : State) (a : Nat) : Byte := s.ibuf.byte .ibuf a

/-- One byte of OBUF. -/
def State.outByte (s : State) (a : Nat) : Byte := s.obuf.byte .obuf a

/-- The bytes IBUF[a .. a+n). -/
def inBytes (s : State) (a n : Nat) : List Byte := (List.range n).map (fun i => s.inByte (a + i))

/-- `MemRead(a, n)` (00_scope.md R9): n bytes of IBUF as one big-endian number. -/
def memRead (s : State) (a n : Nat) : Nat := beNat (inBytes s a n)

/-! ## The end of a command -/

/-- FAILURE of a command, the spec's "trap entry" (R246): the status group and nothing else; the command is over. -/
def fail (op : BitVec 4) (e : CmdError) (s : State) : State :=
  { s with status := packStatus false (errCode e.kind) e.field op, errInfo := e.info, xferLen := 0, remLen := 0, seq := none }

/-- SUCCESS of a command with transfer length x and remaining length r (R247). There is no return instruction (R250). -/
def succeed (op : BitVec 4) (x r : Nat) (s : State) : State :=
  { s with status := packStatus true 0#3 0#2 op, errInfo := 0, xferLen := x, remLen := r, seq := none }

/-! ## The field sequencer

Each stage acts on the command in progress. A raised error ends the command (`seq` becomes none), and every later stage then does
nothing: "the command ends at once" (00_scope.md R9). -/

/-- A command starts with the cursor at 0 and no value decoded (R24, R180). -/
def start (op : BitVec 4) (s : State) : State := { s with seq := some { op := op, cur := 0, rem := 0, pkt := Packet.zero } }

/-- A stage: what the command in progress does; nothing when there is none. -/
def withSeq (k : Seq → State → State) (s : State) : State :=
  match s.seq with
  | none => s
  | some q => k q s

/-- Replaces the sequencer's working state. -/
def setSeq (q : Seq) (s : State) : State := { s with seq := some q }

/-- `raise` (00_scope.md R9). -/
def raise (e : CmdError) : State → State := withSeq fun q s => fail q.op e s

/-- Raises an error if a condition holds, else goes on. -/
def raiseIf (bad : Seq → State → Bool) (e : Seq → State → CmdError) : State → State :=
  withSeq fun q s => if bad q s then fail q.op (e q s) s else s

/-- The read bounds discipline (20_memory.md R75): before a read of n bytes at the cursor, IN_LEN − cur bytes are available; a
shortfall raises InsufficientInput(n − available). -/
def needBytes (n : Nat) : State → State :=
  raiseIf (fun q s => decide (s.inLen - q.cur < n)) (fun q s => insufficientInput (n - (s.inLen - q.cur)))

/-- Runs a stage only if the decoded header selects the field. -/
def ifSel (sel : Packet → Bool) (k : State → State) : State → State :=
  withSeq fun q s => if sel q.pkt then k s else s

/-! ### What each wire word does to the command in progress -/

/-- The header decoder accepts a header word (42_header_codec.md R160): its seven values are decoded and the cursor stands at 4. -/
def takeHeader (ty : BitVec 4) (c t : BitVec 1) (tsi tsf : BitVec 2) (cnt : BitVec 4) (size : BitVec 16) : State → State :=
  withSeq fun q s => setSeq { q with
    cur := 4,
    pkt := { q.pkt with pktType := ty, cidPresent := c, trlPresent := t, tsiKind := tsi, tsfKind := tsf, pktCount := cnt,
                        pktSize := size } } s

/-- The header decoder meets an illegal packet type (40_enum_codecs.md R140): InvalidEnumCode(packet_type, code). -/
def rejectType (code : Nat) : State → State := raise (invalidEnumCode fieldPacketType code)

/-- Step 4a (44_packet_parser.md R185). -/
def takeStreamId (v : BitVec 32) : State → State :=
  withSeq fun q s => setSeq { q with cur := q.cur + 4, rem := q.rem - 4, pkt := { q.pkt with streamId := v } } s

/-- Step 4b (R186, 41_class_id_codec.md R150). -/
def takeClassId (oui : BitVec 32) (icc pcc : BitVec 16) : State → State :=
  withSeq fun q s => setSeq { q with
    cur := q.cur + 8, rem := q.rem - 8, pkt := { q.pkt with classOui := oui, classIcc := icc, classPcc := pcc } } s

/-- Step 4c (R187). -/
def takeTsi (v : BitVec 32) : State → State :=
  withSeq fun q s => setSeq { q with cur := q.cur + 4, rem := q.rem - 4, pkt := { q.pkt with tsiVal := v } } s

/-- Step 4d (R188). -/
def takeTsf (v : BitVec 64) : State → State :=
  withSeq fun q s => setSeq { q with cur := q.cur + 8, rem := q.rem - 8, pkt := { q.pkt with tsfVal := v } } s

/-- Step 5 (R189): the payload is a view, no byte of it is read. -/
def takePayload : State → State :=
  withSeq fun q s => setSeq { q with cur := q.cur + q.rem, pkt := { q.pkt with payOff := q.cur, payLen := q.rem } } s

/-- Step 6 (R190, 43_trailer_codec.md R170). -/
def takeTrailer (w : BitVec 32) : State → State :=
  withSeq fun q s => setSeq { q with cur := q.cur + 4, pkt := { q.pkt with trailer := w } } s

/-! ### The readers: a bounds check, a read at the cursor, the word's effect -/

/-- `dec_header` on its word (R160): packet_type, then tsi_kind, then tsf_kind (40_enum_codecs.md R147). -/
def decHeaderWord (w : BitVec 32) (s : State) : State :=
  match decPacketType (hdrType w).toNat with
  | .error e => raise e s
  | .ok ty =>
    match decTsiKind (hdrTsi w).toNat with
    | .error e => raise e s
    | .ok tsi =>
      match decTsfKind (hdrTsf w).toNat with
      | .error e => raise e s
      | .ok tsf => takeHeader ty (hdrClassId w) (hdrTrailer w) tsi tsf (hdrCount w) (hdrSize w) s

/-- `dec_header` (R160): the length comes before the code, which cannot be examined without the byte. -/
def readHeader (s : State) : State :=
  withSeq (fun q s => decHeaderWord (BitVec.ofNat 32 (memRead s q.cur 4)) s) (needBytes 4 s)

/-- The stream identifier reader (R185). -/
def readStreamId (s : State) : State :=
  withSeq (fun q s => takeStreamId (BitVec.ofNat 32 (memRead s q.cur 4)) s) (needBytes 4 s)

/-- `dec_class_id` at the cursor (R150): one 4-byte and two 2-byte reads. -/
def readClassId (s : State) : State :=
  withSeq (fun q s =>
    takeClassId (BitVec.ofNat 32 (memRead s q.cur 4)) (BitVec.ofNat 16 (memRead s (q.cur + 4) 2))
      (BitVec.ofNat 16 (memRead s (q.cur + 6) 2)) s)
    (needBytes 8 s)

/-- The integer timestamp reader (R187). -/
def readTsi (s : State) : State :=
  withSeq (fun q s => takeTsi (BitVec.ofNat 32 (memRead s q.cur 4)) s) (needBytes 4 s)

/-- The fractional timestamp reader (R188). -/
def readTsf (s : State) : State :=
  withSeq (fun q s => takeTsf (BitVec.ofNat 64 (memRead s q.cur 8)) s) (needBytes 8 s)

/-- `dec_trailer` at the cursor (R170). -/
def readTrailer (s : State) : State :=
  withSeq (fun q s => takeTrailer (BitVec.ofNat 32 (memRead s q.cur 4)) s) (needBytes 4 s)

/-! ### The writers -/

/-- The write bounds discipline (20_memory.md R76): one test of the whole length before the first byte is written. -/
def needRoom (n : Nat) : State → State := raiseIf (fun _ s => decide (s.outCap < n)) (fun _ _ => outputTooSmall)

/-- `MemWrite` at the cursor, which moves past the bytes (10_state.md R24). The bytes are those the state's registers and IBUF give;
an emission changes neither, so every field of a command is emitted from the values of its start (20_memory.md R77). -/
def emit (bytes : State → List Byte) : State → State :=
  withSeq fun q s =>
    { s with obuf := s.obuf.writeBytes q.cur (bytes s), seq := some { q with cur := q.cur + (bytes s).length } }

/-- Emits a field if the header registers select it (45_packet_assembler.md R211, R220). -/
def emitIf (sel : Packet → Bool) (bytes : State → List Byte) : State → State :=
  withSeq fun _ s => if sel s.pkt then emit bytes s else s

/-- The bytes of the header `enc_header` writes for the header registers and a given packet_size (42_header_codec.md R161). -/
def headerBytes (p : Packet) (size : BitVec 16) : List Byte :=
  beBytes 4 (headerWord (encPacketType p.pktType) p.cidPresent p.trlPresent (encTsiKind p.tsiKind) (encTsfKind p.tsfKind)
    p.pktCount size).toNat

/-- `enc_class_id`'s eight bytes (41_class_id_codec.md R151): oui, information class, packet class. -/
def classIdBytes (p : Packet) : List Byte :=
  beBytes 4 p.classOui.toNat ++ beBytes 2 p.classIcc.toNat ++ beBytes 2 p.classPcc.toNat

/-! ### Success -/

/-- Success of a decode command: REM_LEN = IN_LEN − XFER_LEN (10_state.md R29, R30). -/
def finishDecode (x : Nat) : State → State := withSeq fun q s => succeed q.op x (s.inLen - x) s

/-- Success of an encode command: REM_LEN = 0 (R30). -/
def finishEncode (x : Nat) : State → State := withSeq fun q s => succeed q.op x 0 s

/-! ## The host's register access (46_control_commands.md R233, R234) -/

/-- The value of a register (R233); CMD reads 0 (R35). -/
def readReg (s : State) : Reg → Nat
  | .cmd => 0
  | .status => s.status.toNat
  | .errInfo => s.errInfo
  | .xferLen => s.xferLen
  | .remLen => s.remLen
  | .inLen => s.inLen
  | .outCap => s.outCap
  | .present => (present s.pkt).toNat
  | .pktType => s.pkt.pktType.toNat
  | .cidPresent => s.pkt.cidPresent.toNat
  | .trlPresent => s.pkt.trlPresent.toNat
  | .tsiKind => s.pkt.tsiKind.toNat
  | .tsfKind => s.pkt.tsfKind.toNat
  | .pktCount => s.pkt.pktCount.toNat
  | .pktSize => s.pkt.pktSize.toNat
  | .streamId => s.pkt.streamId.toNat
  | .classOui => s.pkt.classOui.toNat
  | .classIcc => s.pkt.classIcc.toNat
  | .classPcc => s.pkt.classPcc.toNat
  | .tsiVal => s.pkt.tsiVal.toNat
  | .tsfVal => s.pkt.tsfVal.toNat
  | .payOff => s.pkt.payOff
  | .payLen => s.pkt.payLen
  | .trailer => s.pkt.trailer.toNat

/-- A read by index: an unmapped index reads 0 (R35). A register is read whole (R233), also where LEN_W makes it wider than the 64 bits of
data that 30_encoding.md R117 gives the port, whose read of such a register the spec leaves open (log 18, DESIGN CHOICE). -/
def readIndex (s : State) (index : Nat) : Nat :=
  match regOfIndex index with
  | some r => readReg s r
  | none => 0

/-- PKT_TYPE is write-any-read-legal (R23): an illegal v[3:0] is dropped. -/
def writePktType (v : Nat) (p : Packet) : Packet := if v % 16 ≤ 5 then { p with pktType := BitVec.ofNat 4 v } else p

/-- A host write of a register (R22, R23, R31, R32, R35): the value cut to the register's width; a read-only register ignores it. CMD
is not written here: its write issues a command. -/
def writeReg (v : Nat) (s : State) : Reg → State
  | .cmd | .status | .errInfo | .xferLen | .remLen | .present => s
  | .inLen => { s with inLen := v % 2 ^ s.lenW }
  | .outCap => { s with outCap := v % 2 ^ s.lenW }
  | .pktType => { s with pkt := writePktType v s.pkt }
  | .cidPresent => { s with pkt := { s.pkt with cidPresent := BitVec.ofNat 1 v } }
  | .trlPresent => { s with pkt := { s.pkt with trlPresent := BitVec.ofNat 1 v } }
  | .tsiKind => { s with pkt := { s.pkt with tsiKind := BitVec.ofNat 2 v } }
  | .tsfKind => { s with pkt := { s.pkt with tsfKind := BitVec.ofNat 2 v } }
  | .pktCount => { s with pkt := { s.pkt with pktCount := BitVec.ofNat 4 v } }
  | .pktSize => { s with pkt := { s.pkt with pktSize := BitVec.ofNat 16 v } }
  | .streamId => { s with pkt := { s.pkt with streamId := BitVec.ofNat 32 v } }
  | .classOui => { s with pkt := { s.pkt with classOui := BitVec.ofNat 32 v } }
  | .classIcc => { s with pkt := { s.pkt with classIcc := BitVec.ofNat 16 v } }
  | .classPcc => { s with pkt := { s.pkt with classPcc := BitVec.ofNat 16 v } }
  | .tsiVal => { s with pkt := { s.pkt with tsiVal := BitVec.ofNat 32 v } }
  | .tsfVal => { s with pkt := { s.pkt with tsfVal := BitVec.ofNat 64 v } }
  | .payOff => { s with pkt := { s.pkt with payOff := v % 2 ^ s.lenW } }
  | .payLen => { s with pkt := { s.pkt with payLen := v % 2 ^ s.lenW } }
  | .trailer => { s with pkt := { s.pkt with trailer := BitVec.ofNat 32 v } }

/-- A write by index: an unmapped index ignores it (R35). -/
def writeIndex (index v : Nat) (s : State) : State :=
  match regOfIndex index with
  | some r => writeReg v s r
  | none => s

/-! ## Reset (70_reset_and_hazards.md R270 to R272) -/

/-- A memory every cell of which is unspecified from now on: no cell is listed and the free values are those of a new epoch (R270, U19). -/
def Memory.scramble (m : Memory) : Memory := { epoch := m.epoch + 1, cells := [] }

/-- The reset input: every register takes the value 0 (R271), and "Reset does not write IBUF or OBUF" (R272), so a written cell keeps its
byte and an unwritten one its free value (log 8). What the host has still to issue and what it last read are outside the block (log 11). -/
def resetBlock (s : State) : State :=
  { s with pkt := Packet.zero, status := 0, errInfo := 0, xferLen := 0, remLen := 0, inLen := 0, outCap := 0,
           seq := none }

/-- The reset input while a command executes: the registers as at any reset, and "an unspecified effect on OBUF" (R270, U19): no cell of
OBUF is known afterwards. IBUF, which no command writes (10_state.md R36), stands as it was (log 8). -/
def resetCut (s : State) : State := { resetBlock s with obuf := s.obuf.scramble }

end Sys2Proof.Machine
end

