-- ==== Sys2Proof/Machine/ClassIdCodec.lean ====
section
/-! DEFINITION. The class identifier codec (41_class_id_codec.md): DEC_CID, ENC_CID and the CLASS_ID word. -/

namespace Sys2Proof.Machine

/-- DEC_CID's commit: the three class registers only (R152, D21). -/
def commitClassId : State → State :=
  withSeq fun q s => { s with pkt := { s.pkt with
    classOui := q.pkt.classOui, classIcc := q.pkt.classIcc, classPcc := q.pkt.classPcc } }

/-- DEC_CID, code 0x3 (R152): eight bytes unconditionally. -/
def decCid (s : State) : State := start 3#4 s |> readClassId |> commitClassId |> finishDecode 8

/-- DEC_CID (R152). -/
def execDecCid (s : State) : Host.Outcome State Fault Refusal := .next (decCid s)

/-- ENC_CID, code 0x4 (R153). -/
def encCid (s : State) : State := start 4#4 s |> needRoom 8 |> emit (fun s => classIdBytes s.pkt) |> finishEncode 8

/-- ENC_CID (R153). -/
def execEncCid (s : State) : Host.Outcome State Fault Refusal := .next (encCid s)

/-- CLASS_ID: the class-identifier field of the packet being decoded (R150, 44_packet_parser.md R186; log 7). -/
def execClassId (oui : BitVec 32) (icc pcc : BitVec 16) (s : State) : Host.Outcome State Fault Refusal :=
  .next (takeClassId oui icc pcc s)

end Sys2Proof.Machine
end

