-- ==== Sys2Proof/Machine/Control.lean ====
section
/-! DEFINITION. NOP and the reserved command codes (46_control_commands.md R231, R232). -/

namespace Sys2Proof.Machine

/-- NOP (R231): it changes no state at all, not even the status group. -/
def execNop (s : State) : Host.Outcome State Fault Refusal := .next s

/-- A reserved command code (R232): the command fails with IllegalCommand(code). -/
def reservedCode (code : BitVec 4) (s : State) : State := raise (illegalCommand code) (start code s)

/-- Code 0x9 (R232). -/
def execReserved9 (s : State) : Host.Outcome State Fault Refusal := .next (reservedCode 9#4 s)

/-- Code 0xA (R232). -/
def execReservedA (s : State) : Host.Outcome State Fault Refusal := .next (reservedCode 10#4 s)

/-- Code 0xB (R232). -/
def execReservedB (s : State) : Host.Outcome State Fault Refusal := .next (reservedCode 11#4 s)

/-- Code 0xC (R232). -/
def execReservedC (s : State) : Host.Outcome State Fault Refusal := .next (reservedCode 12#4 s)

/-- Code 0xD (R232). -/
def execReservedD (s : State) : Host.Outcome State Fault Refusal := .next (reservedCode 13#4 s)

/-- Code 0xE (R232). -/
def execReservedE (s : State) : Host.Outcome State Fault Refusal := .next (reservedCode 14#4 s)

/-- Code 0xF (R232). -/
def execReservedF (s : State) : Host.Outcome State Fault Refusal := .next (reservedCode 15#4 s)

end Sys2Proof.Machine
end

