-- ==== Sys2Proof/Machine/HeaderCodec.lean ====
section
/-! DEFINITION. The header codec (42_header_codec.md): DEC_HDR, ENC_HDR, and what each header word does to the decode command that meets
it (R160, R140). A wire word met by no command changes nothing (log 7). -/

namespace Sys2Proof.Machine

/-- DEC_HDR's commit: the seven header registers only (R162, D21). -/
def commitHeader : State → State :=
  withSeq fun q s => { s with pkt := { s.pkt with
    pktType := q.pkt.pktType, cidPresent := q.pkt.cidPresent, trlPresent := q.pkt.trlPresent, tsiKind := q.pkt.tsiKind,
    tsfKind := q.pkt.tsfKind, pktCount := q.pkt.pktCount, pktSize := q.pkt.pktSize } }

/-- DEC_HDR, code 0x1 (R162). -/
def decHdr (s : State) : State := start 1#4 s |> readHeader |> commitHeader |> finishDecode 4

/-- DEC_HDR (R162). -/
def execDecHdr (s : State) : Host.Outcome State Fault Refusal := .next (decHdr s)

/-- ENC_HDR, code 0x2 (R163): PKT_SIZE is written as it stands. -/
def encHdr (s : State) : State :=
  start 2#4 s |> needRoom 4 |> emit (fun s => headerBytes s.pkt s.pkt.pktSize) |> finishEncode 4

/-- ENC_HDR (R163). -/
def execEncHdr (s : State) : Host.Outcome State Fault Refusal := .next (encHdr s)

/-- HDR_DATA: a header word of type 0 (R160, R102). -/
def execHdrData (c t : BitVec 1) (tsi tsf : BitVec 2) (cnt : BitVec 4) (size : BitVec 16) (s : State) :
    Host.Outcome State Fault Refusal := .next (takeHeader 0#4 c t tsi tsf cnt size s)

/-- HDR_DATA_SID: a header word of type 1 (R160, R102). -/
def execHdrDataSid (c t : BitVec 1) (tsi tsf : BitVec 2) (cnt : BitVec 4) (size : BitVec 16) (s : State) :
    Host.Outcome State Fault Refusal := .next (takeHeader 1#4 c t tsi tsf cnt size s)

/-- HDR_EXT_DATA: a header word of type 2 (R160, R102). -/
def execHdrExtData (c t : BitVec 1) (tsi tsf : BitVec 2) (cnt : BitVec 4) (size : BitVec 16) (s : State) :
    Host.Outcome State Fault Refusal := .next (takeHeader 2#4 c t tsi tsf cnt size s)

/-- HDR_EXT_DATA_SID: a header word of type 3 (R160, R102). -/
def execHdrExtDataSid (c t : BitVec 1) (tsi tsf : BitVec 2) (cnt : BitVec 4) (size : BitVec 16) (s : State) :
    Host.Outcome State Fault Refusal := .next (takeHeader 3#4 c t tsi tsf cnt size s)

/-- HDR_CONTEXT: a header word of type 4 (R160, R102). -/
def execHdrContext (c t : BitVec 1) (tsi tsf : BitVec 2) (cnt : BitVec 4) (size : BitVec 16) (s : State) :
    Host.Outcome State Fault Refusal := .next (takeHeader 4#4 c t tsi tsf cnt size s)

/-- HDR_EXT_CONTEXT: a header word of type 5 (R160, R102). -/
def execHdrExtContext (c t : BitVec 1) (tsi tsf : BitVec 2) (cnt : BitVec 4) (size : BitVec 16) (s : State) :
    Host.Outcome State Fault Refusal := .next (takeHeader 5#4 c t tsi tsf cnt size s)

/-- HDR_ILLEGAL_6_7: the decode command fails with InvalidEnumCode(packet_type, code) (R140, R114). -/
def execHdrIllegal67 (code : BitVec 4) (s : State) : Host.Outcome State Fault Refusal := .next (rejectType code.toNat s)

/-- HDR_ILLEGAL_8_15: the decode command fails with InvalidEnumCode(packet_type, code) (R140, R114). -/
def execHdrIllegal815 (code : BitVec 4) (s : State) : Host.Outcome State Fault Refusal := .next (rejectType code.toNat s)

end Sys2Proof.Machine
end

