-- ==== Sys2Proof/Machine/PacketAssembler.lean ====
section
/-! DEFINITION. The packet assembler (45_packet_assembler.md): ENC_PKT (R218), its four tests in order (R222) and its emission. -/

namespace Sys2Proof.Machine

/-- `total` of R213: the overhead of the shape and the payload length. -/
def assembledBytes (p : Packet) : Nat := overhead p + p.payLen

/-- `words` of R213: the recomputed packet_size (R214). -/
def assembledWords (p : Packet) : Nat := assembledBytes p / Config.wordBytes

/-- Test 1 (R212): the payload is a whole number of words. -/
def checkWholeWords : State → State :=
  raiseIf (fun _ s => decide (s.pkt.payLen % Config.wordBytes ≠ 0)) (fun _ _ => integerConversionOverflow)

/-- Test 2 (R213): packet_size fits 16 bits. -/
def checkPacketSize : State → State :=
  raiseIf (fun _ s => decide (Config.maxWords < assembledWords s.pkt)) (fun _ _ => integerConversionOverflow)

/-- Test 3 (R216): the payload view lies inside the input view; the sum is a natural number and does not wrap. -/
def checkPayloadView : State → State :=
  raiseIf (fun _ s => decide (s.inLen < s.pkt.payOff + s.pkt.payLen))
    (fun _ s => insufficientInput (s.pkt.payOff + s.pkt.payLen - s.inLen))

/-- Test 4 (R217): one capacity test for the whole packet. -/
def checkCapacity : State → State := withSeq fun _ s => needRoom (assembledBytes s.pkt) s

/-- The completion: XFER_LEN = total, REM_LEN = 0 (R218). -/
def finishAssembly : State → State := withSeq fun _ s => finishEncode (assembledBytes s.pkt) s

/-- ENC_PKT, code 0x8 (R218). PKT_SIZE is neither read nor written (R214, R215). -/
def encPkt (s : State) : State :=
  start 8#4 s
    |> checkWholeWords
    |> checkPacketSize
    |> checkPayloadView
    |> checkCapacity
    |> emit (fun s => headerBytes s.pkt (BitVec.ofNat 16 (assembledWords s.pkt)))
    |> emitIf selS (fun s => beBytes 4 s.pkt.streamId.toNat)
    |> emitIf selC (fun s => classIdBytes s.pkt)
    |> emitIf selI (fun s => beBytes 4 s.pkt.tsiVal.toNat)
    |> emitIf selF (fun s => beBytes 8 s.pkt.tsfVal.toNat)
    |> emit (fun s => inBytes s s.pkt.payOff s.pkt.payLen)
    |> emitIf selT (fun s => beBytes 4 s.pkt.trailer.toNat)
    |> finishAssembly

/-- ENC_PKT (R218). -/
def execEncPkt (s : State) : Host.Outcome State Fault Refusal := .next (encPkt s)

end Sys2Proof.Machine
end

