-- ==== Sys2Proof/Machine/PacketParser.lean ====
section
/-! DEFINITION. The packet parser (44_packet_parser.md): DEC_PKT as the seven steps of R181 to R191 in order (R192), and the field words
STREAM_ID, TSI_VALUE and TSF_VALUE. -/

namespace Sys2Proof.Machine

/-- `total` of step 2 (R182): the packet length in bytes the decoded header declares. -/
def declaredBytes (q : Seq) : Nat := Config.wordBytes * q.pkt.pktSize.toNat

/-- Step 2 (R182): the whole packet must be in the view. -/
def checkTotal : State → State :=
  raiseIf (fun q s => decide (s.inLen < declaredBytes q)) (fun q s => insufficientInput (declaredBytes q - s.inLen))

/-- Step 3, the consistency check (R184, D13). -/
def checkOverhead : State → State :=
  raiseIf (fun q _ => decide (declaredBytes q < overhead q.pkt)) (fun _ _ => integerConversionOverflow)

/-- Step 3, the running length: total − 4 − 4T (R184). -/
def initRem : State → State :=
  withSeq fun q s => setSeq { q with rem := declaredBytes q - 4 - widthIf (selT q.pkt) 4 } s

/-- Step 7's commit: all sixteen packet registers (R191). -/
def commitPacket : State → State := withSeq fun q s => { s with pkt := q.pkt }

/-- Step 7's completion: XFER_LEN = total, REM_LEN = IN_LEN − total (R191). -/
def finishPacket : State → State := withSeq fun q s => finishDecode (declaredBytes q) s

/-- DEC_PKT, code 0x7 (R192). -/
def decPkt (s : State) : State :=
  start 7#4 s
    |> readHeader
    |> checkTotal
    |> checkOverhead
    |> initRem
    |> ifSel selS readStreamId
    |> ifSel selC readClassId
    |> ifSel selI readTsi
    |> ifSel selF readTsf
    |> takePayload
    |> ifSel selT readTrailer
    |> commitPacket
    |> finishPacket

/-- DEC_PKT (R192). -/
def execDecPkt (s : State) : Host.Outcome State Fault Refusal := .next (decPkt s)

/-- STREAM_ID: the stream-identifier field of the packet being decoded (R185; log 7). -/
def execStreamId (v : BitVec 32) (s : State) : Host.Outcome State Fault Refusal := .next (takeStreamId v s)

/-- TSI_VALUE: the integer-timestamp field of the packet being decoded (R187; log 7). -/
def execTsiValue (v : BitVec 32) (s : State) : Host.Outcome State Fault Refusal := .next (takeTsi v s)

/-- TSF_VALUE: the fractional-timestamp field of the packet being decoded (R188; log 7). -/
def execTsfValue (v : BitVec 64) (s : State) : Host.Outcome State Fault Refusal := .next (takeTsf v s)

end Sys2Proof.Machine
end

