-- ==== Sys2Proof/Machine/TrailerCodec.lean ====
section
/-! DEFINITION. The trailer codec (43_trailer_codec.md): DEC_TRL, ENC_TRL and the TRAILER word. No relation between trailer bits is
checked (R175). -/

namespace Sys2Proof.Machine

/-- DEC_TRL's commit: TRAILER only (R172, D21). -/
def commitTrailer : State → State :=
  withSeq fun q s => { s with pkt := { s.pkt with trailer := q.pkt.trailer } }

/-- DEC_TRL, code 0x5 (R172). -/
def decTrl (s : State) : State := start 5#4 s |> readTrailer |> commitTrailer |> finishDecode 4

/-- DEC_TRL (R172). -/
def execDecTrl (s : State) : Host.Outcome State Fault Refusal := .next (decTrl s)

/-- ENC_TRL, code 0x6 (R173). -/
def encTrl (s : State) : State := start 6#4 s |> needRoom 4 |> emit (fun s => beBytes 4 s.pkt.trailer.toNat) |> finishEncode 4

/-- ENC_TRL (R173). -/
def execEncTrl (s : State) : Host.Outcome State Fault Refusal := .next (encTrl s)

/-- TRAILER: the trailer word of the packet being decoded (R170, 44_packet_parser.md R190; log 7). -/
def execTrailer (f : TrailerFields) (s : State) : Host.Outcome State Fault Refusal := .next (takeTrailer (trailerWord f) s)

end Sys2Proof.Machine
end

