-- ==== Sys2Proof/Machine/Dispatch.lean ====
section
/-! DEFINITION. One arm per constructor of Instr (46_control_commands.md R230 for the commands; 30_encoding.md R111 for the wire words). -/

namespace Sys2Proof.Machine

def exec (i : Instr) (s : State) : Host.Outcome State Fault Refusal :=
  match i with
  | .nop => Sys2Proof.Machine.execNop s
  | .decHdr => Sys2Proof.Machine.execDecHdr s
  | .encHdr => Sys2Proof.Machine.execEncHdr s
  | .decCid => Sys2Proof.Machine.execDecCid s
  | .encCid => Sys2Proof.Machine.execEncCid s
  | .decTrl => Sys2Proof.Machine.execDecTrl s
  | .encTrl => Sys2Proof.Machine.execEncTrl s
  | .decPkt => Sys2Proof.Machine.execDecPkt s
  | .encPkt => Sys2Proof.Machine.execEncPkt s
  | .reserved9 => Sys2Proof.Machine.execReserved9 s
  | .reservedA => Sys2Proof.Machine.execReservedA s
  | .reservedB => Sys2Proof.Machine.execReservedB s
  | .reservedC => Sys2Proof.Machine.execReservedC s
  | .reservedD => Sys2Proof.Machine.execReservedD s
  | .reservedE => Sys2Proof.Machine.execReservedE s
  | .reservedF => Sys2Proof.Machine.execReservedF s
  | .hdrData c t tsi tsf cnt size => Sys2Proof.Machine.execHdrData c t tsi tsf cnt size s
  | .hdrDataSid c t tsi tsf cnt size => Sys2Proof.Machine.execHdrDataSid c t tsi tsf cnt size s
  | .hdrExtData c t tsi tsf cnt size => Sys2Proof.Machine.execHdrExtData c t tsi tsf cnt size s
  | .hdrExtDataSid c t tsi tsf cnt size => Sys2Proof.Machine.execHdrExtDataSid c t tsi tsf cnt size s
  | .hdrContext c t tsi tsf cnt size => Sys2Proof.Machine.execHdrContext c t tsi tsf cnt size s
  | .hdrExtContext c t tsi tsf cnt size => Sys2Proof.Machine.execHdrExtContext c t tsi tsf cnt size s
  | .hdrIllegal67 code => Sys2Proof.Machine.execHdrIllegal67 code s
  | .hdrIllegal815 code => Sys2Proof.Machine.execHdrIllegal815 code s
  | .streamId v => Sys2Proof.Machine.execStreamId v s
  | .classId oui icc pcc => Sys2Proof.Machine.execClassId oui icc pcc s
  | .tsiValue v => Sys2Proof.Machine.execTsiValue v s
  | .tsfValue v => Sys2Proof.Machine.execTsfValue v s
  | .trailer f => Sys2Proof.Machine.execTrailer f s

end Sys2Proof.Machine
end

