-- ==== Sys2Proof/Machine/HostPort.lean ====
section
/-! DEFINITION. The host port (46_control_commands.md R230, R233 to R235, R237): what each transaction does. A command's write of CMD
completes when the command has, so a command is one step (R237). -/

namespace Sys2Proof.Machine

/-- The instruction a register write fetches: a write of index 0x00 is the command its value encodes (R230), no other write is one. -/
def fetchCommand (index data : Nat) : Option Instr :=
  match regOfIndex index with
  | some .cmd => some (decodeCommand data)
  | _ => none

/-- A register write (R234). -/
def hostWrite (index data : Nat) (s : State) : Host.Outcome State Fault Refusal :=
  match fetchCommand index data with
  | some i => exec i s
  | none => .next (writeIndex index data s)

/-- A byte write of a buffer (R235, 20_memory.md R84). -/
def hostWriteByte (buffer : BufId) (a : Nat) (v : Byte) (s : State) : Host.Outcome State Fault Refusal :=
  if a < 2 ^ s.lenW then
    match buffer with
    | .ibuf => .next { s with ibuf := s.ibuf.write a v }
    | .obuf => .next { s with obuf := s.obuf.write a v }
  else .fault (.noSuchCell buffer a)

/-- A byte read of a buffer (R235, R84): the value goes to the host, nothing in the block changes. -/
def hostReadByte (buffer : BufId) (a : Nat) (s : State) : Host.Outcome State Fault Refusal :=
  if a < 2 ^ s.lenW then
    match buffer with
    | .ibuf => .next { s with rdata := (s.inByte a).toNat }
    | .obuf => .next { s with rdata := (s.outByte a).toNat }
  else .fault (.noSuchCell buffer a)

/-- One event at the host port. -/
def transact (t : Txn) (s : State) : Host.Outcome State Fault Refusal :=
  match t with
  | .writeReg index data => hostWrite index data s
  | .readReg index => .next { s with rdata := readIndex s index }
  | .writeByte buffer a v => hostWriteByte buffer a v s
  | .readByte buffer a => hostReadByte buffer a s
  | .reset => .next (resetBlock s)
  | .resetDuring _ => .next (resetCut s)
  | .foreignDuring _ => .refused .foreignMaster

/-- The next event of the host's list. With none left the block "is idle and holds its state" (60_exceptions.md R259; log 3). -/
def hostStep (s : State) : Host.Outcome State Fault Refusal :=
  match s.host with
  | [] => .next s
  | t :: rest => transact t { s with host := rest }

/-- The next transaction of the host becomes a write of CMD. -/
def presentCommand (data : Nat) (s : State) : State := { s with host := .writeReg 0x00 data :: s.host }

/-- A word of a packet placed where a single-field decode command meets it: IBUF from address 0, IN_LEN covering it, and the command next
(20_memory.md R78, 70_reset_and_hazards.md R273). -/
def presentWord (bs : List Byte) (code : Nat) (s : State) : State :=
  presentCommand code { s with ibuf := s.ibuf.writeBytes 0 bs, inLen := bs.length }

/-- A table word placed where the next step meets it: a command code as the host's next write of CMD, a header word under DEC_HDR, a
class identifier under DEC_CID (log 6). -/
def presentTableWord (nbits w : Nat) (s : State) : State :=
  match tablePosition nbits with
  | some .header => presentWord (beBytes 4 w) 0x1 s
  | some .classId => presentWord (beBytes 8 w) 0x3 s
  | _ => presentCommand w s

end Sys2Proof.Machine
end

