-- ==== Sys2Proof/Safety.lean ====
section
/-! DEFINITION. What a safe run is, and the terms the statements use: the invariant of every state between two transactions (10_state.md
R41 (a) and (b), the register widths of R21 and R27 to R32, R24), the end states of a command (60_exceptions.md R246, R247), and the
wire format written out byte by byte (30_encoding.md R101, R105 to R111), beside and not by way of the model's encoder and cursor. -/

namespace Sys2Proof.Machine

/-! ## The invariant -/

/-- 10_state.md R41 (b) with R27 and R271: the reserved bits are 0, ERR_KIND is one of 0 to 4 and 7, OK = 1 implies no error, a failure
names one, only InvalidEnumCode has a field, and with DONE = 0 the register is 0. -/
abbrev statusLegal (w : BitVec 32) : Prop :=
  w &&& statusReservedMask = 0#32 ∧
  statusKind w ≠ 5#3 ∧ statusKind w ≠ 6#3 ∧
  (statusOk w = true → statusKind w = 0#3 ∧ statusField w = 0#2) ∧
  (statusOk w = false → statusDone w = true → statusKind w ≠ 0#3) ∧
  (statusKind w ≠ 1#3 → statusField w = 0#2) ∧
  (statusDone w = false → w = 0#32)

/-- The LEN_W-bit registers and ERR_INFO hold values of their width (R21, R28 to R32; R9 "v is within the register's width"). -/
abbrev widthsLegal (s : State) : Prop :=
  s.inLen < 2 ^ s.lenW ∧ s.outCap < 2 ^ s.lenW ∧ s.xferLen < 2 ^ s.lenW ∧ s.remLen < 2 ^ s.lenW ∧
  s.pkt.payOff < 2 ^ s.lenW ∧ s.pkt.payLen < 2 ^ s.lenW ∧ s.errInfo < 2 ^ Config.infoW s.lenW

/-- The buffers are in canonical form and list only cells that exist. -/
abbrev buffersLegal (s : State) : Prop :=
  s.ibuf.wf = true ∧ s.obuf.wf = true ∧ s.ibuf.inRange s.lenW = true ∧ s.obuf.inRange s.lenW = true

/-- The invariant of every state between two transactions. -/
abbrev State.Inv (s : State) : Prop :=
  Config.minLenW ≤ s.lenW ∧ s.pkt.pktType.toNat ≤ 5 ∧ statusLegal s.status ∧ widthsLegal s ∧ buffersLegal s ∧ s.seq = none

/-- A step that neither faults nor is refused. -/
def safeStep (s : State) : Prop := ∃ t, step s = .next t

/-! ## How a command ends -/

/-- A failed command leaves everything but the status group (R246): STATUS and ERR_INFO as given, both lengths 0. -/
def State.failed (s : State) (status : BitVec 32) (info : Nat) : State :=
  { s with status := status, errInfo := info, xferLen := 0, remLen := 0, seq := none }

/-- The status group of a successful command (R247). -/
def State.succeeded (s : State) (status : BitVec 32) (x r : Nat) : State :=
  { s with status := status, errInfo := 0, xferLen := x, remLen := r, seq := none }

/-- The command code of a command (30_encoding.md R115). -/
def commandCode (i : Instr) : BitVec 4 := BitVec.ofNat 4 (encodeNumber i)

/-- The four decode commands. -/
def isDecode (i : Instr) : Bool := i == .decHdr || i == .decCid || i == .decTrl || i == .decPkt

/-- The four encode commands. -/
def isEncode (i : Instr) : Bool := i == .encHdr || i == .encCid || i == .encTrl || i == .encPkt

/-! ## The wire format, byte by byte -/

/-- The 16-bit field at an IBUF offset, the lower address more significant (20_memory.md R71). -/
def halfAt (s : State) (a : Nat) : BitVec 16 := s.inByte a ++ s.inByte (a + 1)

/-- The 32-bit field at an IBUF offset. -/
def wordAt (s : State) (a : Nat) : BitVec 32 := s.inByte a ++ s.inByte (a + 1) ++ s.inByte (a + 2) ++ s.inByte (a + 3)

/-- The 64-bit field at an IBUF offset. -/
def longAt (s : State) (a : Nat) : BitVec 64 := wordAt s a ++ wordAt s (a + 4)

/-- The bytes of a 16-bit field, most significant first. -/
def wire16 (v : BitVec 16) : List Byte := [v.extractLsb' 8 8, v.extractLsb' 0 8]

/-- The bytes of a 32-bit field. -/
def wire32 (v : BitVec 32) : List Byte :=
  [v.extractLsb' 24 8, v.extractLsb' 16 8, v.extractLsb' 8 8, v.extractLsb' 0 8]

/-- The bytes of a 64-bit field. -/
def wire64 (v : BitVec 64) : List Byte := wire32 (v.extractLsb' 32 32) ++ wire32 (v.extractLsb' 0 32)

/-- The header's four bytes (R101): byte0 type, class_id_present, trailer_present, two zero bits; byte1 tsi, tsf, count; size. -/
def wireHeader (p : Packet) (size : BitVec 16) : List Byte :=
  [p.pktType ++ p.cidPresent ++ p.trlPresent ++ 0#2, p.tsiKind ++ p.tsfKind ++ p.pktCount] ++ wire16 size

/-- The class identifier's eight bytes (R106). -/
def wireClassId (p : Packet) : List Byte := wire32 p.classOui ++ wire16 p.classIcc ++ wire16 p.classPcc

/-- 4 + 4S + 8C + 4I + 8F, the payload's offset (44_packet_parser.md R183). -/
def payloadOffset (p : Packet) : Nat :=
  4 + 4 * (selS p).toNat + 8 * (selC p).toNat + 4 * (selI p).toNat + 8 * (selF p).toNat

/-- 4 + 4S + 8C + 4I + 8F + 4T (R183). -/
def shapeOverhead (p : Packet) : Nat := payloadOffset p + 4 * (selT p).toNat

/-- The packet ENC_PKT emits (30_encoding.md R111, 45_packet_assembler.md R218), for a packet_size given in words. -/
def wirePacket (s : State) (words : Nat) : List Byte :=
  wireHeader s.pkt (BitVec.ofNat 16 words)
    ++ (if selS s.pkt then wire32 s.pkt.streamId else [])
    ++ (if selC s.pkt then wireClassId s.pkt else [])
    ++ (if selI s.pkt then wire32 s.pkt.tsiVal else [])
    ++ (if selF s.pkt then wire64 s.pkt.tsfVal else [])
    ++ (List.range s.pkt.payLen).map (fun k => s.inByte (s.pkt.payOff + k))
    ++ (if selT s.pkt then wire32 s.pkt.trailer else [])

/-- The header fields of a word (R101), every other field 0. -/
def headerFields (w : BitVec 32) : Packet :=
  { Packet.zero with
    pktType := w.extractLsb' 28 4, cidPresent := w.extractLsb' 27 1, trlPresent := w.extractLsb' 26 1,
    tsiKind := w.extractLsb' 22 2, tsfKind := w.extractLsb' 20 2, pktCount := w.extractLsb' 16 4, pktSize := w.extractLsb' 0 16 }

/-- The packet value of the bytes at IBUF 0: each field at its offset of R111, an absent field 0 (44_packet_parser.md R191). -/
def parsedPacket (s : State) : Packet :=
  let h := headerFields (wordAt s 0)
  let cid := 4 + 4 * (selS h).toNat
  let tsi := cid + 8 * (selC h).toNat
  let tsf := tsi + 4 * (selI h).toNat
  let total := 4 * h.pktSize.toNat
  { h with
    streamId := if selS h then wordAt s 4 else 0
    classOui := if selC h then wordAt s cid else 0
    classIcc := if selC h then halfAt s (cid + 4) else 0
    classPcc := if selC h then halfAt s (cid + 6) else 0
    tsiVal := if selI h then wordAt s tsi else 0
    tsfVal := if selF h then longAt s tsf else 0
    payOff := payloadOffset h
    payLen := total - shapeOverhead h
    trailer := if selT h then wordAt s (total - 4) else 0 }

end Sys2Proof.Machine
end

