-- ==== Sys2Proof/WellFormed.lean ====
section
/-! DEFINITION. Which terms of Instr are instructions of the opcode table: every operand of a legal row is a bit field of the row's own
width, so only the two illegal header groups need a check (30_encoding.md R114, R120). -/

namespace Sys2Proof

/-- The row HDR_ILLEGAL_6_7 covers the packet-type codes 6 and 7. -/
def illegalCode67 (code : BitVec 4) : Bool := code == 6#4 || code == 7#4

/-- The row HDR_ILLEGAL_8_15 covers the packet-type codes 8 to 15. -/
def illegalCode815 (code : BitVec 4) : Bool := decide (8 ≤ code.toNat)

/-- The check of one instruction. -/
def Instr.wellFormed : Instr → Bool
  | .hdrIllegal67 code => illegalCode67 code
  | .hdrIllegal815 code => illegalCode815 code
  | .nop | .decHdr | .encHdr | .decCid | .encCid | .decTrl | .encTrl | .decPkt | .encPkt => true
  | .reserved9 | .reservedA | .reservedB | .reservedC | .reservedD | .reservedE | .reservedF => true
  | .hdrData .. | .hdrDataSid .. | .hdrExtData .. | .hdrExtDataSid .. | .hdrContext .. | .hdrExtContext .. => true
  | .streamId _ | .classId .. | .tsiValue _ | .tsfValue _ | .trailer _ => true

end Sys2Proof
end

