-- ==== Sys2Proof/Certificates/Slice0/Obligations.lean ====
section
/-! DEFINITION. The statements for the provers, in the order of the spec's files: commands and dispatch, the codecs, DEC_PKT, ENC_PKT, the
wire rows, errors, memory, the host port, reset, the invariant, the encodings. -/

open Sys2Proof Sys2Proof.Machine

/-! ## Dispatch and control -/

/-- 46 R230: "A host write of value v to CMD selects the command with code v[3:0] by the table of 30 R115 and executes it". The table
is written out; the block runs the command once and the transaction is gone (that the host's writes stand in a list is the model's, log 3). -/
def Obligations.CmdWriteRunsTheCommandOfItsCode : Prop :=
  ∀ (s : State) (v : Nat) (rest : List Txn), s.host = .writeReg 0x00 v :: rest →
    step s = exec (([.nop, .decHdr, .encHdr, .decCid, .encCid, .decTrl, .encTrl, .decPkt, .encPkt, .reserved9, .reservedA, .reservedB,
      .reservedC, .reservedD, .reservedE, .reservedF] : List Instr).getD (v % 16) .nop) { s with host := rest }

/-- A step runs the decoded instruction: where the host's next transaction writes to CMD a value whose byte decodes to i, the step is
exec of i at the state with that transaction taken from the list, and nothing else around it (log 3, the model's own list). -/
def Obligations.StepRunsTheDecodedInstruction : Prop :=
  ∀ (s : State) (v : Nat) (rest : List Txn) (i : Instr) (bs : List Byte), s.host = .writeReg 0x00 v :: rest →
    decode .command [BitVec.ofNat 8 v] = .ok (i, bs) → i.wellFormed = true → step s = exec i { s with host := rest }

/-- With no transaction left the block is idle and holds its state (60 R259; that a step then answers the same state is the model's
choice, log 3). -/
def Obligations.IdleStepHoldsTheState : Prop :=
  ∀ s : State, s.host = [] → step s = .next s

/-- 46 R231: NOP "changes no state at all". -/
def Obligations.NopChangesNoState : Prop :=
  ∀ s : State, exec .nop s = .next s

/-- 46 R232, the seven reserved codes: DONE = 1, OK = 0, ERR_KIND = 7, ERR_FIELD = 0, LAST_OP = ERR_INFO = the code, both lengths 0, and
nothing else changes. -/
def Obligations.ReservedCodesFailWithIllegalCommand : Prop :=
  ∀ s : State,
    exec .reserved9 s = .next (s.failed 0x2471#32 9) ∧
    exec .reservedA s = .next (s.failed 0x2871#32 10) ∧
    exec .reservedB s = .next (s.failed 0x2C71#32 11) ∧
    exec .reservedC s = .next (s.failed 0x3071#32 12) ∧
    exec .reservedD s = .next (s.failed 0x3471#32 13) ∧
    exec .reservedE s = .next (s.failed 0x3871#32 14) ∧
    exec .reservedF s = .next (s.failed 0x3C71#32 15)

/-- Every command answers a next state from every state: none hangs, none is abandoned (46 R237, R238). So does every wire row: that a
wire row is an instruction is the model's reading (log 5 and log 6), and its answer outside a command, the same state, too (log 7). -/
def Obligations.EveryInstructionCompletes : Prop :=
  ∀ (i : Instr) (s : State), ∃ t, exec i s = .next t

/-! ## The single-field codecs -/

/-- 40 R140 to R147: the three enumerated decoders succeed exactly on their closed range, with the code itself as the variant, and fail
elsewhere with InvalidEnumCode carrying the field and the exact raw value; encoding and decoding are inverse on every variant. -/
def Obligations.EnumDecodersTotalOnTheirRange : Prop :=
  (∀ c : Nat, decPacketType c = if c < 6 then .ok (BitVec.ofNat 4 c) else .error ⟨.invalidEnumCode, 1#2, c⟩) ∧
  (∀ c : Nat, decTsiKind c = if c < 4 then .ok (BitVec.ofNat 2 c) else .error ⟨.invalidEnumCode, 2#2, c⟩) ∧
  (∀ c : Nat, decTsfKind c = if c < 4 then .ok (BitVec.ofNat 2 c) else .error ⟨.invalidEnumCode, 3#2, c⟩) ∧
  (∀ v : BitVec 4, v.toNat < 6 → decPacketType (encPacketType v).toNat = .ok v) ∧
  (∀ v : BitVec 2, decTsiKind (encTsiKind v).toNat = .ok v ∧ decTsfKind (encTsfKind v).toNat = .ok v) ∧
  (∀ (c : Nat) (v : BitVec 4), decPacketType c = .ok v → (encPacketType v).toNat = c) ∧
  (∀ (c : Nat) (v : BitVec 2), (decTsiKind c = .ok v → (encTsiKind v).toNat = c) ∧ (decTsfKind c = .ok v → (encTsfKind v).toNat = c))

/-- 42 R162 with R160: DEC_HDR on every state. A view shorter than 4 bytes fails with the shortfall, an illegal packet type with the
code; otherwise the seven header registers take the word's fields, and nothing else but the status group changes. -/
def Obligations.DecHdrDecodesTheHeaderWord : Prop :=
  ∀ s : State,
    exec .decHdr s = .next (
      let w := wordAt s 0
      if s.inLen < 4 then s.failed 0x421#32 (4 - s.inLen)
      else if 5 < w.toNat / 2 ^ 28 then s.failed 0x511#32 (w.toNat / 2 ^ 28)
      else
        { s with pkt := { s.pkt with
            pktType := w.extractLsb' 28 4, cidPresent := w.extractLsb' 27 1, trlPresent := w.extractLsb' 26 1,
            tsiKind := w.extractLsb' 22 2, tsfKind := w.extractLsb' 20 2, pktCount := w.extractLsb' 16 4,
            pktSize := w.extractLsb' 0 16 } }.succeeded 0x403#32 4 (s.inLen - 4))

/-- 42 R163 with R161: ENC_HDR on every state. Fewer than 4 bytes of room fail with OutputTooSmall and write nothing; otherwise exactly
OBUF[0..3] receive the header registers, PKT_SIZE as it stands, the reserved bits 0. -/
def Obligations.EncHdrWritesTheHeaderBytes : Prop :=
  ∀ s : State,
    (s.outCap < 4 → exec .encHdr s = .next (s.failed 0x831#32 0)) ∧
    (4 ≤ s.outCap → ∃ m : Memory,
      exec .encHdr s = .next ({ s with obuf := m }.succeeded 0x803#32 4 0) ∧
      ∀ a, m.byte .obuf a = (wireHeader s.pkt s.pkt.pktSize).getD a (s.outByte a))

/-- 41 R152 with R150: DEC_CID on every state. -/
def Obligations.DecCidDecodesTheClassIdentifier : Prop :=
  ∀ s : State,
    exec .decCid s = .next (
      if s.inLen < 8 then s.failed 0xC21#32 (8 - s.inLen)
      else
        { s with pkt := { s.pkt with classOui := wordAt s 0, classIcc := halfAt s 4, classPcc := halfAt s 6 } }.succeeded
          0xC03#32 8 (s.inLen - 8))

/-- 41 R153 with R151: ENC_CID on every state; exactly OBUF[0..7]. -/
def Obligations.EncCidWritesTheClassIdentifier : Prop :=
  ∀ s : State,
    (s.outCap < 8 → exec .encCid s = .next (s.failed 0x1031#32 0)) ∧
    (8 ≤ s.outCap → ∃ m : Memory,
      exec .encCid s = .next ({ s with obuf := m }.succeeded 0x1003#32 8 0) ∧
      ∀ a, m.byte .obuf a = (wireClassId s.pkt).getD a (s.outByte a))

/-- 43 R172 with R170: DEC_TRL on every state; every pattern is a valid trailer. -/
def Obligations.DecTrlDecodesTheTrailerWord : Prop :=
  ∀ s : State,
    exec .decTrl s = .next (
      if s.inLen < 4 then s.failed 0x1421#32 (4 - s.inLen)
      else { s with pkt := { s.pkt with trailer := wordAt s 0 } }.succeeded 0x1403#32 4 (s.inLen - 4))

/-- 43 R173 with R171: ENC_TRL on every state; exactly OBUF[0..3]. -/
def Obligations.EncTrlWritesTheTrailerWord : Prop :=
  ∀ s : State,
    (s.outCap < 4 → exec .encTrl s = .next (s.failed 0x1831#32 0)) ∧
    (4 ≤ s.outCap → ∃ m : Memory,
      exec .encTrl s = .next ({ s with obuf := m }.succeeded 0x1803#32 4 0) ∧
      ∀ a, m.byte .obuf a = (wire32 s.pkt.trailer).getD a (s.outByte a))

/-! ## DEC_PKT -/

/-- 44 R192 with R199 and R194: DEC_PKT, which reads field by field at its cursor, is on every state the parse that reads each field at
its closed-form offset of 30 R111: the four errors in their order, and no other (the defensive checks cannot fire); on success all
sixteen packet registers, the absent fields 0, and the status group. -/
def Obligations.DecPktParsesByOffsets : Prop :=
  ∀ s : State,
    exec .decPkt s = .next (
      let w := wordAt s 0
      let p := parsedPacket s
      let total := 4 * (w.toNat % 2 ^ 16)
      if s.inLen < 4 then s.failed 0x1C21#32 (4 - s.inLen)
      else if 5 < w.toNat / 2 ^ 28 then s.failed 0x1D11#32 (w.toNat / 2 ^ 28)
      else if s.inLen < total then s.failed 0x1C21#32 (total - s.inLen)
      else if total < shapeOverhead p then s.failed 0x1C41#32 0
      else { s with pkt := p }.succeeded 0x1C03#32 total (s.inLen - total))

/-- 44 R195, R196 and 10 R41 (c): after a successful DEC_PKT the view, the trailer and the size agree, lie inside the input view, stand on
word boundaries, and the register of every absent field is 0. -/
def Obligations.ParsedPacketPresenceAlgebra : Prop :=
  ∀ s t : State, exec .decPkt s = .next t → statusOk t.status = true →
    t.pkt.payLen + 4 + (if selT t.pkt then 4 else 0) + (if selS t.pkt then 4 else 0) + (if selC t.pkt then 8 else 0) +
      (if selI t.pkt then 4 else 0) + (if selF t.pkt then 8 else 0) = 4 * t.pkt.pktSize.toNat ∧
    t.pkt.payOff = payloadOffset t.pkt ∧
    t.pkt.payOff + t.pkt.payLen + (if selT t.pkt then 4 else 0) = 4 * t.pkt.pktSize.toNat ∧
    t.xferLen = 4 * t.pkt.pktSize.toNat ∧ t.xferLen ≤ t.inLen ∧ t.remLen = t.inLen - t.xferLen ∧
    t.pkt.payLen % 4 = 0 ∧ t.pkt.payOff ∈ [4, 8, 12, 16, 20, 24, 28] ∧
    (selS t.pkt = false → t.pkt.streamId = 0#32) ∧
    (selC t.pkt = false → t.pkt.classOui = 0#32 ∧ t.pkt.classIcc = 0#16 ∧ t.pkt.classPcc = 0#16) ∧
    (selI t.pkt = false → t.pkt.tsiVal = 0#32) ∧
    (selF t.pkt = false → t.pkt.tsfVal = 0#64) ∧
    (selT t.pkt = false → t.pkt.trailer = 0#32)

/-- 44 R180: "the values the packet registers held before the command have no influence on its outcome". -/
def Obligations.DecPktIgnoresEarlierRegisters : Prop :=
  ∀ (s t : State) (p : Packet), exec .decPkt s = .next t →
    (statusOk t.status = true → exec .decPkt { s with pkt := p } = .next t) ∧
    (statusOk t.status = false → exec .decPkt { s with pkt := p } = .next { t with pkt := p })

/-- 44 R189, 20 R74: DEC_PKT reads no payload byte: IBUF may change everywhere in the payload view and the result is the same. -/
def Obligations.DecPktReadsNoPayloadByte : Prop :=
  ∀ (s t : State) (m : Memory), exec .decPkt s = .next t → statusOk t.status = true →
    (∀ a, a < t.pkt.payOff ∨ t.pkt.payOff + t.pkt.payLen ≤ a → m.byte .ibuf a = s.inByte a) →
    exec .decPkt { s with ibuf := m } = .next { t with ibuf := m }

/-! ## ENC_PKT -/

/-- 45 R218 with R222 and R214: ENC_PKT on every state: the four tests in their order, and on success exactly OBUF[0 .. total) holds the
packet of 30 R111 with the recomputed packet_size, every other cell and register as before. -/
def Obligations.EncPktEmitsThePacket : Prop :=
  ∀ s : State,
    let total := shapeOverhead s.pkt + s.pkt.payLen
    (s.pkt.payLen % 4 ≠ 0 → exec .encPkt s = .next (s.failed 0x2041#32 0)) ∧
    (s.pkt.payLen % 4 = 0 → 65535 < total / 4 → exec .encPkt s = .next (s.failed 0x2041#32 0)) ∧
    (s.pkt.payLen % 4 = 0 → total / 4 ≤ 65535 → s.inLen < s.pkt.payOff + s.pkt.payLen →
      exec .encPkt s = .next (s.failed 0x2021#32 (s.pkt.payOff + s.pkt.payLen - s.inLen))) ∧
    (s.pkt.payLen % 4 = 0 → total / 4 ≤ 65535 → s.pkt.payOff + s.pkt.payLen ≤ s.inLen → s.outCap < total →
      exec .encPkt s = .next (s.failed 0x2031#32 0)) ∧
    (s.pkt.payLen % 4 = 0 → total / 4 ≤ 65535 → s.pkt.payOff + s.pkt.payLen ≤ s.inLen → total ≤ s.outCap → ∃ m : Memory,
      exec .encPkt s = .next ({ s with obuf := m }.succeeded 0x2003#32 total 0) ∧
      ∀ a, m.byte .obuf a = (wirePacket s (total / 4)).getD a (s.outByte a))

/-- 45 R214, R220: PKT_SIZE and the registers of absent fields have no effect on ENC_PKT. -/
def Obligations.EncPktIgnoresSizeAndAbsentFields : Prop :=
  ∀ (s t : State) (p : Packet),
    p.pktType = s.pkt.pktType → p.cidPresent = s.pkt.cidPresent → p.trlPresent = s.pkt.trlPresent → p.tsiKind = s.pkt.tsiKind →
    p.tsfKind = s.pkt.tsfKind → p.pktCount = s.pkt.pktCount → p.payOff = s.pkt.payOff → p.payLen = s.pkt.payLen →
    (selS s.pkt = true → p.streamId = s.pkt.streamId) →
    (selC s.pkt = true → p.classOui = s.pkt.classOui ∧ p.classIcc = s.pkt.classIcc ∧ p.classPcc = s.pkt.classPcc) →
    (selI s.pkt = true → p.tsiVal = s.pkt.tsiVal) → (selF s.pkt = true → p.tsfVal = s.pkt.tsfVal) →
    (selT s.pkt = true → p.trailer = s.pkt.trailer) →
    exec .encPkt s = .next t → exec .encPkt { s with pkt := p } = .next { t with pkt := p }

/-- 45 R219 (a): after a successful DEC_PKT, ENC_PKT with the registers, IBUF and IN_LEN untouched and room enough succeeds with the same
XFER_LEN and reproduces the packet's bytes, but for header byte 0's two reserved bits, which are 0. -/
def Obligations.EncPktInvertsDecPkt : Prop :=
  ∀ (s t : State) (c : Nat), exec .decPkt s = .next t → statusOk t.status = true → t.xferLen ≤ c →
    ∃ u, exec .encPkt { t with outCap := c } = .next u ∧ statusOk u.status = true ∧ u.xferLen = t.xferLen ∧ u.pkt = t.pkt ∧
      ∀ a, a < t.xferLen → u.outByte a = if a = 0 then s.inByte 0 &&& 0xFC#8 else s.inByte a

/-- 45 R219 (b): the bytes a successful ENC_PKT wrote, presented as a view of exactly their length, decode to the same header fields, the
recomputed size, the same present fields, 0 for the absent ones, and a payload of the same length and bytes. PKT_TYPE is legal (10 R23, an
invariant of the model stated below). -/
def Obligations.DecPktInvertsEncPkt : Prop :=
  ∀ s t u : State, s.pkt.pktType.toNat ≤ 5 → exec .encPkt s = .next t → statusOk t.status = true →
    u.inLen = t.xferLen → (∀ a, a < t.xferLen → u.inByte a = t.outByte a) →
    ∃ v, exec .decPkt u = .next v ∧ statusOk v.status = true ∧ v.xferLen = t.xferLen ∧ v.remLen = 0 ∧
      v.pkt = { s.pkt with
        pktSize := BitVec.ofNat 16 (t.xferLen / 4)
        streamId := if selS s.pkt then s.pkt.streamId else 0
        classOui := if selC s.pkt then s.pkt.classOui else 0
        classIcc := if selC s.pkt then s.pkt.classIcc else 0
        classPcc := if selC s.pkt then s.pkt.classPcc else 0
        tsiVal := if selI s.pkt then s.pkt.tsiVal else 0
        tsfVal := if selF s.pkt then s.pkt.tsfVal else 0
        payOff := payloadOffset s.pkt
        trailer := if selT s.pkt then s.pkt.trailer else 0 } ∧
      ∀ k, k < s.pkt.payLen → u.inByte (v.pkt.payOff + k) = s.inByte (s.pkt.payOff + k)

/-! ## The wire rows -/

/-- 42 R160 with 30 R102: a legal header word met by the command in progress gives it the seven header values and leaves the cursor at 4;
nothing else changes (the wire row as an instruction is the model's reading, log 5 and log 6). -/
def Obligations.LegalHeaderRowsGiveTheirFields : Prop :=
  ∀ (s : State) (q : Seq) (c t : BitVec 1) (tsi tsf : BitVec 2) (cnt : BitVec 4) (size : BitVec 16), s.seq = some q →
    let after (ty : BitVec 4) : State := { s with seq := some { q with
      cur := 4
      pkt := { q.pkt with pktType := ty, cidPresent := c, trlPresent := t, tsiKind := tsi, tsfKind := tsf, pktCount := cnt,
                          pktSize := size } } }
    exec (.hdrData c t tsi tsf cnt size) s = .next (after 0#4) ∧
    exec (.hdrDataSid c t tsi tsf cnt size) s = .next (after 1#4) ∧
    exec (.hdrExtData c t tsi tsf cnt size) s = .next (after 2#4) ∧
    exec (.hdrExtDataSid c t tsi tsf cnt size) s = .next (after 3#4) ∧
    exec (.hdrContext c t tsi tsf cnt size) s = .next (after 4#4) ∧
    exec (.hdrExtContext c t tsi tsf cnt size) s = .next (after 5#4)

/-- 40 R140, 30 R114: an illegal header word ends the command in progress with InvalidEnumCode(packet_type, code); only the status group
changes (the wire row as an instruction is the model's reading, log 5 and log 6). -/
def Obligations.IllegalHeaderRowsFailTheCommand : Prop :=
  ∀ (s : State) (q : Seq) (code : BitVec 4), s.seq = some q →
    (code = 6#4 ∨ code = 7#4 → exec (.hdrIllegal67 code) s = .next (s.failed (0#18 ++ q.op ++ 0x111#10) code.toNat)) ∧
    (8 ≤ code.toNat → exec (.hdrIllegal815 code) s = .next (s.failed (0#18 ++ q.op ++ 0x111#10) code.toNat))

/-- 44 R185 to R188, R190: a field word gives the command in progress the field's value, moves the cursor past the field and takes the
optional field's width from the running payload length; nothing else changes (the wire row as an instruction is the model's reading, log
5 and log 6). Where the running length is below the field's width, which 44 R197 rules out inside DEC_PKT, the 0 it takes is the model's
cut subtraction (log 15). -/
def Obligations.FieldRowsGiveTheirValue : Prop :=
  ∀ (s : State) (q : Seq), s.seq = some q →
    (∀ v, exec (.streamId v) s = .next { s with seq := some { q with
      cur := q.cur + 4, rem := q.rem - 4, pkt := { q.pkt with streamId := v } } }) ∧
    (∀ oui icc pcc, exec (.classId oui icc pcc) s = .next { s with seq := some { q with
      cur := q.cur + 8, rem := q.rem - 8, pkt := { q.pkt with classOui := oui, classIcc := icc, classPcc := pcc } } }) ∧
    (∀ v, exec (.tsiValue v) s = .next { s with seq := some { q with
      cur := q.cur + 4, rem := q.rem - 4, pkt := { q.pkt with tsiVal := v } } }) ∧
    (∀ v, exec (.tsfValue v) s = .next { s with seq := some { q with
      cur := q.cur + 8, rem := q.rem - 8, pkt := { q.pkt with tsfVal := v } } }) ∧
    (∀ f, exec (.trailer f) s = .next { s with seq := some { q with
      cur := q.cur + 4, pkt := { q.pkt with trailer := trailerWord f } } })

/-- A wire word outside a command changes nothing: bytes of IBUF are data until a command decodes them (the model's reading, log 7). -/
def Obligations.WireRowsOutsideACommandChangeNothing : Prop :=
  ∀ (i : Instr) (s : State), i.position ≠ .command → s.seq = none → exec i s = .next s

/-- 20 R81 with 44 R181 to R190: what a decode command does with the bytes at its cursor is exec of the instruction they decode to at
that position, given that the field lies inside the view (the wire row as an instruction is the model's reading, log 5 and log 6). -/
def Obligations.ReadersRunTheDecodedRow : Prop :=
  ∀ (s : State) (q : Seq) (i : Instr) (rest : List Byte), s.seq = some q →
    (q.cur + 4 ≤ s.inLen → decode .header (inBytes s q.cur 4) = .ok (i, rest) → exec i s = .next (readHeader s)) ∧
    (q.cur + 4 ≤ s.inLen → decode .streamId (inBytes s q.cur 4) = .ok (i, rest) → exec i s = .next (readStreamId s)) ∧
    (q.cur + 8 ≤ s.inLen → decode .classId (inBytes s q.cur 8) = .ok (i, rest) → exec i s = .next (readClassId s)) ∧
    (q.cur + 4 ≤ s.inLen → decode .tsiValue (inBytes s q.cur 4) = .ok (i, rest) → exec i s = .next (readTsi s)) ∧
    (q.cur + 8 ≤ s.inLen → decode .tsfValue (inBytes s q.cur 8) = .ok (i, rest) → exec i s = .next (readTsf s)) ∧
    (q.cur + 4 ≤ s.inLen → decode .trailer (inBytes s q.cur 4) = .ok (i, rest) → exec i s = .next (readTrailer s))

/-! ## Errors and status -/

/-- 60 R246: a failed command changes the status group and nothing else: DONE set, OK clear, LAST_OP the command's code, both lengths
0. -/
def Obligations.FailureChangesOnlyTheStatusGroup : Prop :=
  ∀ (i : Instr) (s t : State), i.position = .command → i ≠ .nop → exec i s = .next t → statusOk t.status = false →
    t = s.failed t.status t.errInfo ∧ statusDone t.status = true ∧ statusLastOp t.status = commandCode i ∧
    statusKind t.status ≠ 0#3 ∧ t.status &&& statusReservedMask = 0#32

/-- 60 R247 with 10 R29, R30: a successful command reports no error and its own code; XFER_LEN is the bytes consumed or written, command
by command as R29 has them; REM_LEN is what a decode leaves of the view, 0 for an encode, which stays within OUT_CAP (20 R76). -/
def Obligations.SuccessReportsItsTransfer : Prop :=
  ∀ (i : Instr) (s t : State), isDecode i = true ∨ isEncode i = true → exec i s = .next t → statusOk t.status = true →
    t.status = 0#18 ++ commandCode i ++ 0x003#10 ∧ t.errInfo = 0 ∧
    (i = .decHdr ∨ i = .encHdr ∨ i = .decTrl ∨ i = .encTrl → t.xferLen = 4) ∧
    (i = .decCid ∨ i = .encCid → t.xferLen = 8) ∧
    (i = .decPkt → t.xferLen = 4 * t.pkt.pktSize.toNat) ∧
    (i = .encPkt → t.xferLen = shapeOverhead s.pkt + s.pkt.payLen) ∧
    (isDecode i = true → t.xferLen + t.remLen = s.inLen) ∧
    (isEncode i = true → t.remLen = 0 ∧ t.xferLen ≤ s.outCap)

/-- 60 R260, the complete table of which command can raise which kind: 1 InvalidEnumCode, 2 InsufficientInput, 3 OutputTooSmall,
4 IntegerConversionOverflow, 7 IllegalCommand. -/
def Obligations.EachCommandRaisesOnlyItsKinds : Prop :=
  ∀ (i : Instr) (s t : State), i.position = .command → i ≠ .nop → exec i s = .next t → statusOk t.status = false →
    statusKind t.status ∈ (match i with
      | .decHdr => [1#3, 2#3]
      | .decCid | .decTrl => [2#3]
      | .encHdr | .encCid | .encTrl => [3#3]
      | .decPkt => [1#3, 2#3, 4#3]
      | .encPkt => [2#3, 3#3, 4#3]
      | _ => [7#3])

/-- 60 R242: the info of InsufficientInput is at least 1, and "if the host extends the view by at least ERR_INFO bytes (keeping the bytes
already there) and re-issues the command, this check will not fail again; a later check may". The check is the only one of its kind in
the single-field decodes (a, b), in DEC_PKT once its header is in view (d) and in ENC_PKT (f), so they do not raise InsufficientInput
again, whatever the added bytes are. A DEC_PKT that met no whole header (c) may raise it again, but at step 2 only: the new info is the
shortfall of the whole packet that the header now in view declares. -/
def Obligations.InsufficientInputCheckPassesOnRetry : Prop :=
  ∀ (i : Instr) (s t : State) (n : Nat) (m : Memory), isDecode i = true ∨ i = .encPkt → exec i s = .next t →
    statusOk t.status = false → statusKind t.status = 2#3 → s.inLen + t.errInfo ≤ n →
    (∀ a, a < s.inLen → m.byte .ibuf a = s.inByte a) →
    let retry := { t with inLen := n, ibuf := m }
    1 ≤ t.errInfo ∧ ∃ u, exec i retry = .next u ∧
      (statusOk u.status = false → statusKind u.status = 2#3 →
        i = .decPkt ∧ s.inLen < 4 ∧ 4 ≤ n ∧ n < 4 * ((wordAt retry 0).toNat % 2 ^ 16) ∧
        u.errInfo = 4 * ((wordAt retry 0).toNat % 2 ^ 16) - n)

/-- 10 R27: DONE "never returns to 0 except by reset" (the reset events are members of the model's own list, log 3). -/
def Obligations.DoneIsStickyUntilReset : Prop :=
  ∀ s t : State, statusDone s.status = true → step s = .next t →
    (∀ rest, s.host ≠ .reset :: rest) → (∀ v rest, s.host ≠ .resetDuring v :: rest) → statusDone t.status = true

/-! ## The two buffers -/

/-- 20 R70, 10 R36, R37: no instruction changes IBUF, IN_LEN or OUT_CAP, and only an encode command changes OBUF; the model's own fields
are untouched as well. -/
def Obligations.InstructionsLeaveTheInputAlone : Prop :=
  ∀ (i : Instr) (s t : State), exec i s = .next t →
    t.ibuf = s.ibuf ∧ t.inLen = s.inLen ∧ t.outCap = s.outCap ∧ t.lenW = s.lenW ∧ t.host = s.host ∧ t.rdata = s.rdata ∧
    (isEncode i = false → t.obuf = s.obuf) ∧ (isDecode i = false → t.pkt = s.pkt)

/-- 10 R40, D21: a decode command writes its own registers only. -/
def Obligations.SingleFieldDecodesWriteTheirOwnRegisters : Prop :=
  ∀ s t : State,
    (exec .decHdr s = .next t →
      t.pkt = { s.pkt with
        pktType := t.pkt.pktType, cidPresent := t.pkt.cidPresent, trlPresent := t.pkt.trlPresent, tsiKind := t.pkt.tsiKind,
        tsfKind := t.pkt.tsfKind, pktCount := t.pkt.pktCount, pktSize := t.pkt.pktSize }) ∧
    (exec .decCid s = .next t →
      t.pkt = { s.pkt with classOui := t.pkt.classOui, classIcc := t.pkt.classIcc, classPcc := t.pkt.classPcc }) ∧
    (exec .decTrl s = .next t → t.pkt = { s.pkt with trailer := t.pkt.trailer })

/-- 20 R76: a successful encode command writes only OBUF[0 .. XFER_LEN), and XFER_LEN is within OUT_CAP; a failed one writes nothing. -/
def Obligations.EncodeWritesOnlyItsBytes : Prop :=
  ∀ (i : Instr) (s t : State), isEncode i = true → exec i s = .next t →
    (statusOk t.status = true → t.xferLen ≤ s.outCap ∧ ∀ a, t.xferLen ≤ a → t.outByte a = s.outByte a) ∧
    (statusOk t.status = false → ∀ a, t.outByte a = s.outByte a)

/-- 20 R75: "the bytes of IBUF at and above x[IN_LEN] never influence any outcome": any IBUF that agrees below IN_LEN gives the same
result. -/
def Obligations.BytesAboveInLenNeverMatter : Prop :=
  ∀ (i : Instr) (s t : State) (m : Memory), (∀ a, a < s.inLen → m.byte .ibuf a = s.inByte a) → exec i s = .next t →
    exec i { s with ibuf := m } = .next { t with ibuf := m }

/-- No command reads OBUF (10 R37): whatever it holds, the registers come out the same. -/
def Obligations.NoInstructionReadsObuf : Prop :=
  ∀ (i : Instr) (s t : State) (m : Memory), exec i s = .next t →
    ∃ m', exec i { s with obuf := m } = .next { t with obuf := m' } ∧
      (isEncode i = true → statusOk t.status = true → ∀ a, a < t.xferLen → m'.byte .obuf a = t.outByte a)

/-- 20 R84: a host byte write stores the byte and changes no other cell, no cell of the other buffer and no register (the list of
transactions is the model's, log 3). -/
def Obligations.HostByteWriteStoresOneByte : Prop :=
  ∀ (s : State) (a : Nat) (v : Byte) (rest : List Txn), a < 2 ^ s.lenW →
    (s.host = .writeByte .ibuf a v :: rest → ∃ m : Memory,
      step s = .next { s with host := rest, ibuf := m } ∧ ∀ x, m.byte .ibuf x = if x = a then v else s.inByte x) ∧
    (s.host = .writeByte .obuf a v :: rest → ∃ m : Memory,
      step s = .next { s with host := rest, obuf := m } ∧ ∀ x, m.byte .obuf x = if x = a then v else s.outByte x)

/-- 20 R84, 46 R235: a host byte read returns the cell's byte and changes nothing in the block (the list of transactions
and the place of the value read are the model's, log 3 and log 4). -/
def Obligations.HostByteReadReturnsTheByte : Prop :=
  ∀ (s : State) (a : Nat) (rest : List Txn), a < 2 ^ s.lenW →
    (s.host = .readByte .ibuf a :: rest → step s = .next { s with host := rest, rdata := (s.inByte a).toNat }) ∧
    (s.host = .readByte .obuf a :: rest → step s = .next { s with host := rest, rdata := (s.outByte a).toNat })

/-- A host access of a cell that does not exist stops the model (the model's choice, log 10). -/
def Obligations.AccessBeyondTheBufferFaults : Prop :=
  ∀ (s : State) (b : BufId) (a : Nat) (v : Byte) (rest : List Txn), 2 ^ s.lenW ≤ a →
    s.host = .writeByte b a v :: rest ∨ s.host = .readByte b a :: rest → step s = .fault (.noSuchCell b a)

/-! ## The host's registers -/

/-- 10 R22, R31, R32: a host write of a register other than PKT_TYPE stores the value cut to the register's width, and nothing else
changes (the list of transactions is the model's, log 3). -/
def Obligations.HostWriteStoresTheTruncatedValue : Prop :=
  ∀ (s : State) (v : Nat) (rest : List Txn) (index : Nat), s.host = .writeReg index v :: rest →
    (index = 0x05 → step s = .next { s with host := rest, inLen := v % 2 ^ s.lenW }) ∧
    (index = 0x06 → step s = .next { s with host := rest, outCap := v % 2 ^ s.lenW }) ∧
    (index = 0x11 → step s = .next { s with host := rest, pkt := { s.pkt with cidPresent := BitVec.ofNat 1 v } }) ∧
    (index = 0x12 → step s = .next { s with host := rest, pkt := { s.pkt with trlPresent := BitVec.ofNat 1 v } }) ∧
    (index = 0x13 → step s = .next { s with host := rest, pkt := { s.pkt with tsiKind := BitVec.ofNat 2 v } }) ∧
    (index = 0x14 → step s = .next { s with host := rest, pkt := { s.pkt with tsfKind := BitVec.ofNat 2 v } }) ∧
    (index = 0x15 → step s = .next { s with host := rest, pkt := { s.pkt with pktCount := BitVec.ofNat 4 v } }) ∧
    (index = 0x16 → step s = .next { s with host := rest, pkt := { s.pkt with pktSize := BitVec.ofNat 16 v } }) ∧
    (index = 0x17 → step s = .next { s with host := rest, pkt := { s.pkt with streamId := BitVec.ofNat 32 v } }) ∧
    (index = 0x18 → step s = .next { s with host := rest, pkt := { s.pkt with classOui := BitVec.ofNat 32 v } }) ∧
    (index = 0x19 → step s = .next { s with host := rest, pkt := { s.pkt with classIcc := BitVec.ofNat 16 v } }) ∧
    (index = 0x1A → step s = .next { s with host := rest, pkt := { s.pkt with classPcc := BitVec.ofNat 16 v } }) ∧
    (index = 0x1B → step s = .next { s with host := rest, pkt := { s.pkt with tsiVal := BitVec.ofNat 32 v } }) ∧
    (index = 0x1C → step s = .next { s with host := rest, pkt := { s.pkt with tsfVal := BitVec.ofNat 64 v } }) ∧
    (index = 0x1D → step s = .next { s with host := rest, pkt := { s.pkt with payOff := v % 2 ^ s.lenW } }) ∧
    (index = 0x1E → step s = .next { s with host := rest, pkt := { s.pkt with payLen := v % 2 ^ s.lenW } }) ∧
    (index = 0x1F → step s = .next { s with host := rest, pkt := { s.pkt with trailer := BitVec.ofNat 32 v } })

/-- 10 R23: "A host write of v to PKT_TYPE stores v[3:0] if v[3:0] ≤ 5 and otherwise leaves PKT_TYPE unchanged; nothing is reported."
(The list of transactions is the model's, log 3.) -/
def Obligations.PktTypeIsWriteAnyReadLegal : Prop :=
  ∀ (s : State) (v : Nat) (rest : List Txn), s.host = .writeReg 0x10 v :: rest →
    step s = .next (if v % 16 ≤ 5 then { s with host := rest, pkt := { s.pkt with pktType := BitVec.ofNat 4 v } }
                    else { s with host := rest })

/-- 10 R35: a host write to a read-only register or to an unmapped index is ignored (the list of transactions is the model's,
log 3). -/
def Obligations.ReadOnlyAndUnmappedWritesAreIgnored : Prop :=
  ∀ (s : State) (index v : Nat) (rest : List Txn), s.host = .writeReg index v :: rest →
    index = 0x01 ∨ index = 0x02 ∨ index = 0x03 ∨ index = 0x04 ∨ index = 0x07 ∨ (0x08 ≤ index ∧ index ≤ 0x0F) ∨ 0x1F < index →
    step s = .next { s with host := rest }

/-- 46 R233 with 10 R34, R35: a read returns the register's value, 0 for CMD and for an unmapped index, and has no other effect
(the list of transactions and the place of the value read are the model's, log 3 and log 4; that a register wider than the port's 64 bits,
which only a LEN_W of 64 or more makes, is read whole is the model's choice, log 18). -/
def Obligations.HostReadReturnsTheRegister : Prop :=
  ∀ (s : State) (index : Nat) (rest : List Txn), s.host = .readReg index :: rest →
    step s = .next { s with host := rest, rdata :=
      ([0, s.status.toNat, s.errInfo, s.xferLen, s.remLen, s.inLen, s.outCap, (present s.pkt).toNat, 0, 0, 0, 0, 0, 0, 0, 0,
        s.pkt.pktType.toNat, s.pkt.cidPresent.toNat, s.pkt.trlPresent.toNat, s.pkt.tsiKind.toNat, s.pkt.tsfKind.toNat,
        s.pkt.pktCount.toNat, s.pkt.pktSize.toNat, s.pkt.streamId.toNat, s.pkt.classOui.toNat, s.pkt.classIcc.toNat,
        s.pkt.classPcc.toNat, s.pkt.tsiVal.toNat, s.pkt.tsfVal.toNat, s.pkt.payOff, s.pkt.payLen,
        s.pkt.trailer.toNat] : List Nat).getD index 0 }

/-- 10 R26: the five bits of PRESENT are the source's presence conditions on the header registers. -/
def Obligations.PresentIsTheHeaderSelects : Prop :=
  ∀ p : Packet,
    ((present p).getLsbD 0 = true ↔ p.pktType = 1#4 ∨ p.pktType = 3#4) ∧
    ((present p).getLsbD 1 = true ↔ p.cidPresent = 1#1) ∧
    ((present p).getLsbD 2 = true ↔ p.tsiKind ≠ 0#2) ∧
    ((present p).getLsbD 3 = true ↔ p.tsfKind ≠ 0#2) ∧
    ((present p).getLsbD 4 = true ↔ p.trlPresent = 1#1)

/-! ## Reset and other masters -/

/-- 70 R271: the reset input gives every register the value 0 and leaves no command in progress; R272: "Reset does not write IBUF or
OBUF", so every byte reads as before (log 8 says how this stands beside 10 R39). The reset event of the list is the model's (log 3). -/
def Obligations.ResetClearsTheRegistersAndKeepsTheBuffers : Prop :=
  ∀ (s : State) (rest : List Txn), s.host = .reset :: rest → ∃ t, step s = .next t ∧
    (∀ r : Reg, readReg t r = 0) ∧ t.seq = none ∧ t.lenW = s.lenW ∧ t.host = rest ∧
    ∀ a, t.inByte a = s.inByte a ∧ t.outByte a = s.outByte a

/-- 70 R270: a reset during a command: the registers take their reset values whatever the command was, and every byte of IBUF reads as
before (R272). Nothing is claimed of OBUF, on which a cut command has an unspecified effect (the event is the model's form, log 3 and
log 8). -/
def Obligations.ResetDuringACommandClearsTheRegistersAndKeepsIbuf : Prop :=
  ∀ (s : State) (v : Nat) (rest : List Txn), s.host = .resetDuring v :: rest → ∃ t, step s = .next t ∧
    (∀ r : Reg, readReg t r = 0) ∧ t.seq = none ∧ t.lenW = s.lenW ∧ t.host = rest ∧
    ∀ a, t.inByte a = s.inByte a

/-- 70 R273: "Straight after reset: every decode command fails with InsufficientInput ... and every encode command fails with
OutputTooSmall". -/
def Obligations.DecodesAndEncodesFailStraightAfterReset : Prop :=
  let r := State.reset
  exec .decHdr r = .next (r.failed 0x0421#32 4) ∧ exec .decCid r = .next (r.failed 0x0C21#32 8) ∧
  exec .decTrl r = .next (r.failed 0x1421#32 4) ∧ exec .decPkt r = .next (r.failed 0x1C21#32 4) ∧
  exec .encHdr r = .next (r.failed 0x0831#32 0) ∧ exec .encCid r = .next (r.failed 0x1031#32 0) ∧
  exec .encTrl r = .next (r.failed 0x1831#32 0) ∧ exec .encPkt r = .next (r.failed 0x2031#32 0)

/-- 70 R279: a run in which a foreign master writes during a command has no meaning and is refused (the event is the
model's form, log 9). -/
def Obligations.ForeignWriteDuringACommandIsRefused : Prop :=
  ∀ (s : State) (v : Nat) (rest : List Txn), s.host = .foreignDuring v :: rest → step s = .refused .foreignMaster

/-! ## The invariant -/

/-- Every step keeps the invariant: a legal packet type (10 R23, R41 (a)), a legal STATUS (R41 (b)), every register within its width
(00 R9, R10; 44 R197; 45 R221), both buffers in canonical form inside their 2^LEN_W cells, no command in progress (R24), for every
LEN_W of at least 19 (00 R6). The canonical form of the buffers and LEN_W as data are the model's, log 1 and log 2. -/
def Obligations.EveryStepKeepsTheInvariant : Prop :=
  ∀ s t : State, s.Inv → step s = .next t → t.Inv

/-- The reset state has the invariant. -/
def Obligations.ResetHasTheInvariant : Prop := State.reset.Inv

/-! ## Encodings -/

/-- The decoder reads back every well-formed instruction from the bytes the encoder writes, at every operand value, whatever follows
them. -/
def Obligations.DecodeReadsBackEveryEncoding : Prop :=
  ∀ (i : Instr) (rest : List Byte), i.wellFormed = true → decode i.position (encode i ++ rest) = .ok (i, rest)

/-- Whatever bytes are decoded, the instruction is well formed and the rest is what follows the position's width (30 R114, 46 R230); only
a shortfall of the position's bytes (30 R100 with 41 R150, 42 R160, 43 R170) is refused, and it is named. That a command stands in one byte
is the model's choice (log 13). -/
def Obligations.DecodeIsTotalAndWellFormed : Prop :=
  ∀ (p : Position) (bs : List Byte),
    (bs.length < p.size → decode p bs = .error (.tooFewBytes (p.size - bs.length))) ∧
    (p.size ≤ bs.length → ∃ i, decode p bs = .ok (i, bs.drop p.size) ∧ i.wellFormed = true ∧ i.position = p)

/-- 42 R164, R165: for a header word with a legal packet type, encoding what was decoded gives the word with its reserved bits cleared. -/
def Obligations.HeaderReencodesWithReservedBitsClear : Prop :=
  ∀ w : BitVec 32, w.toNat / 2 ^ 28 ≤ 5 → encodeNumber (decodeHeader w) = (w &&& 0xFCFFFFFF#32).toNat

/-- At the five field positions the encoder gives back the very bytes that were decoded: the class identifier by 41 R154, the trailer by 43
R174, the stream identifier and the two timestamps, uninterpreted big-endian numbers, by 30 R105, R107 and R108 with 20 R72. -/
def Obligations.FieldWordsReencodeExactly : Prop :=
  ∀ (p : Position) (bs rest : List Byte) (i : Instr), p ≠ .command → p ≠ .header → bs.length = p.size →
    decode p bs = .ok (i, rest) → encode i = bs

/-- 10 R42: "The enable at bit 31 − k (k = 0..11) corresponds to the indicator at bit 19 − k", with the names of the table; the count
enable is bit 7 and the count bits 6:0. -/
def Obligations.TrailerFieldsStandAtTheirBits : Prop :=
  ∀ f : TrailerFields,
    let w := trailerWord f
    trailerFields w = f ∧
    (List.range 24).map (fun k => w.getLsbD (31 - k)) =
      [f.calibratedTimeEn, f.validDataEn, f.referenceLockEn, f.agcMgcEn, f.detectedSignalEn, f.spectralInversionEn, f.overrangeEn,
       f.sampleLossEn, f.userDefined1En, f.userDefined2En, f.userDefined3En, f.userDefined4En,
       f.calibratedTimeInd, f.validDataInd, f.referenceLockInd, f.agcMgcInd, f.detectedSignalInd, f.spectralInversionInd,
       f.overrangeInd, f.sampleLossInd, f.userDefined1Ind, f.userDefined2Ind, f.userDefined3Ind, f.userDefined4Ind] ∧
    w.getLsbD 7 = f.contextCountEn ∧ w.extractLsb' 0 7 = f.contextCount

/-- 30 R101, R102, R114, R120: every header word matches exactly one of the table's eight header rows, and that row is the one the decoder
names. -/
def Obligations.EveryHeaderWordHasExactlyOneRow : Prop :=
  ∀ (w : BitVec 32) (k : Nat) (r : HeaderRow), headerRows[k]? = some r →
    (r.matches w = true ↔ (decodeHeader w).headerRow = some k)

/-- Words written out from 30 R101, R106, R110 and R115 decode to the instructions they stand for: scenario B's header, identifier and
trailer, scenario A's header with a reserved bit set, an illegal header, two command codes (a command as one byte is the model's choice,
log 13). -/
def Obligations.WrittenOutWordsDecode : Prop :=
  decode .header [0x1C#8, 0x05#8, 0x00#8, 0x07#8] = .ok (.hdrDataSid 1#1 1#1 0#2 0#2 5#4 7#16, []) ∧
  decode .header [0x01#8, 0x00#8, 0x00#8, 0x02#8] = .ok (.hdrData 0#1 0#1 0#2 0#2 0#4 2#16, []) ∧
  decode .header [0xF0#8, 0x00#8, 0x00#8, 0x00#8] = .ok (.hdrIllegal815 15#4, []) ∧
  decode .classId [0x00#8, 0x12#8, 0xA2#8, 0x00#8, 0x00#8, 0x01#8, 0x00#8, 0x02#8] = .ok (.classId 0x0012A200#32 1#16 2#16, []) ∧
  decode .trailer [0x40#8, 0x04#8, 0x00#8, 0x83#8] =
    .ok (.trailer { trailerFields 0#32 with validDataEn := true, validDataInd := true, contextCountEn := true, contextCount := 3#7 }, []) ∧
  decode .command [0x17#8] = .ok (.decPkt, []) ∧
  decode .command [0x0C#8] = .ok (.reservedC, [])
end

