-- ==== Sys2Proof/Laws/Codec.lean ====
section
/-! SUPPORT. Byte order and bit fields: a number written big-endian reads back, the fields of a packed header or trailer word are the
ones packed. -/

namespace Sys2Proof

/-! ## Byte order -/

@[simp] theorem beBytes_length (n v : Nat) : (beBytes n v).length = n := by
  induction n with
  | zero => rfl
  | succ n ih => simp [beBytes, ih]

theorem beNat_lt (bs : List Byte) : beNat bs < 256 ^ bs.length := by
  induction bs with
  | nil => simp [beNat]
  | cons b bs ih =>
    have hb := b.isLt
    simp only [beNat, List.length_cons, Nat.pow_succ]
    calc b.toNat * 256 ^ bs.length + beNat bs
        < b.toNat * 256 ^ bs.length + 256 ^ bs.length := by omega
      _ = (b.toNat + 1) * 256 ^ bs.length := by ring
      _ ≤ 256 * 256 ^ bs.length := Nat.mul_le_mul_right _ (by omega)
      _ = 256 ^ bs.length * 256 := by ring

theorem beNat_append (xs ys : List Byte) : beNat (xs ++ ys) = beNat xs * 256 ^ ys.length + beNat ys := by
  induction xs with
  | nil => simp [beNat]
  | cons b bs ih =>
    simp only [List.cons_append, beNat, ih, List.length_append, Nat.pow_add]
    ring

/-- What is written big-endian in n bytes reads back modulo 256^n. -/
theorem beNat_beBytes (n v : Nat) : beNat (beBytes n v) = v % 256 ^ n := by
  induction n with
  | zero => simp [beBytes, beNat, Nat.mod_one]
  | succ n ih =>
    simp only [beBytes, beNat, ih, beBytes_length, BitVec.toNat_ofNat]
    have e : v % 256 ^ (n + 1) = v % 256 ^ n + 256 ^ n * (v / 256 ^ n % 256) := by rw [Nat.pow_succ, Nat.mod_mul]
    rw [e, Nat.mul_comm, Nat.add_comm]

theorem beBytes_mod (n v : Nat) : beBytes n (v % 256 ^ n) = beBytes n v := by
  suffices h : ∀ k, k ≤ n → beBytes k (v % 256 ^ n) = beBytes k v from h n le_rfl
  intro k hk
  induction k with
  | zero => rfl
  | succ k ih =>
    simp only [beBytes, ih (by omega)]
    congr 1
    apply BitVec.eq_of_toNat_eq
    simp only [BitVec.toNat_ofNat]
    obtain ⟨d, rfl⟩ : ∃ d, n = k + 1 + d := ⟨n - (k + 1), by omega⟩
    have e : 256 ^ (k + 1 + d) = 256 ^ k * (2 ^ 8 * 256 ^ d) := by
      rw [Nat.pow_add, Nat.pow_succ]; ring
    rw [e, Nat.mod_mul_right_div_self, Nat.mod_mul_right_mod]

/-- Reading bytes and writing the number back gives the bytes. -/
theorem beBytes_beNat (bs : List Byte) : beBytes bs.length (beNat bs) = bs := by
  induction bs with
  | nil => rfl
  | cons b bs ih =>
    have hlt := beNat_lt bs
    have hpos : 0 < 256 ^ bs.length := Nat.pos_of_ne_zero (by simp)
    have htail : beBytes bs.length (b.toNat * 256 ^ bs.length + beNat bs) = bs := by
      rw [← beBytes_mod, Nat.mul_add_mod_of_lt' hlt]
      exact ih
    simp only [List.length_cons, beBytes, beNat, htail]
    congr 1
    rw [Nat.mul_comm, Nat.mul_add_div hpos, Nat.div_eq_of_lt hlt]
    simp
where
  Nat.mul_add_mod_of_lt' {a b c : Nat} (h : c < b) : (a * b + c) % b = c := by
    rw [Nat.mul_comm, Nat.mul_add_mod, Nat.mod_eq_of_lt h]

/-! ## The header word -/

section Header
variable (ty cnt : BitVec 4) (c t : BitVec 1) (tsi tsf : BitVec 2) (size : BitVec 16)

@[simp] theorem hdrType_headerWord : hdrType (headerWord ty c t tsi tsf cnt size) = ty := by
  apply BitVec.eq_of_getLsbD_eq
  intro i hi
  simp only [hdrType, headerWord, BitVec.getLsbD_extractLsb', BitVec.getLsbD_append]
  interval_cases i <;> simp

@[simp] theorem hdrClassId_headerWord : hdrClassId (headerWord ty c t tsi tsf cnt size) = c := by
  apply BitVec.eq_of_getLsbD_eq
  intro i hi
  simp only [hdrClassId, headerWord, BitVec.getLsbD_extractLsb', BitVec.getLsbD_append]
  interval_cases i
  simp

@[simp] theorem hdrTrailer_headerWord : hdrTrailer (headerWord ty c t tsi tsf cnt size) = t := by
  apply BitVec.eq_of_getLsbD_eq
  intro i hi
  simp only [hdrTrailer, headerWord, BitVec.getLsbD_extractLsb', BitVec.getLsbD_append]
  interval_cases i
  simp

@[simp] theorem hdrTsi_headerWord : hdrTsi (headerWord ty c t tsi tsf cnt size) = tsi := by
  apply BitVec.eq_of_getLsbD_eq
  intro i hi
  simp only [hdrTsi, headerWord, BitVec.getLsbD_extractLsb', BitVec.getLsbD_append]
  interval_cases i <;> simp

@[simp] theorem hdrTsf_headerWord : hdrTsf (headerWord ty c t tsi tsf cnt size) = tsf := by
  apply BitVec.eq_of_getLsbD_eq
  intro i hi
  simp only [hdrTsf, headerWord, BitVec.getLsbD_extractLsb', BitVec.getLsbD_append]
  interval_cases i <;> simp

@[simp] theorem hdrCount_headerWord : hdrCount (headerWord ty c t tsi tsf cnt size) = cnt := by
  apply BitVec.eq_of_getLsbD_eq
  intro i hi
  simp only [hdrCount, headerWord, BitVec.getLsbD_extractLsb', BitVec.getLsbD_append]
  interval_cases i <;> simp

@[simp] theorem hdrSize_headerWord : hdrSize (headerWord ty c t tsi tsf cnt size) = size := by
  apply BitVec.eq_of_getLsbD_eq
  intro i hi
  simp only [hdrSize, headerWord, BitVec.getLsbD_extractLsb', BitVec.getLsbD_append]
  interval_cases i <;> simp

end Header

/-! ## The trailer word -/

theorem trailerFields_trailerWord (f : TrailerFields) : trailerFields (trailerWord f) = f := by
  obtain ⟨⟩ := f
  simp only [trailerFields, trailerWord, TrailerFields.mk.injEq]
  refine ⟨?_, ?_, ?_, ?_, ?_, ?_, ?_, ?_, ?_, ?_, ?_, ?_, ?_, ?_, ?_, ?_, ?_, ?_, ?_, ?_, ?_, ?_, ?_, ?_, ?_, ?_⟩
  all_goals first
    | (simp only [BitVec.getLsbD_append]; simp)
    | (apply BitVec.eq_of_getLsbD_eq
       intro i hi
       simp only [BitVec.getLsbD_extractLsb', BitVec.getLsbD_append]
       interval_cases i <;> simp)

theorem trailerWord_trailerFields (w : BitVec 32) : trailerWord (trailerFields w) = w := by
  apply BitVec.eq_of_getLsbD_eq
  intro i hi
  simp only [trailerWord, trailerFields, BitVec.getLsbD_append]
  interval_cases i <;> simp

end Sys2Proof
end

