-- ==== Sys2Proof/Laws/State.lean ====
section
/-! SUPPORT. One lemma per field of State per named update, each true by rfl, so that no proof unfolds an update. -/

namespace Sys2Proof.Machine

@[simp] theorem fail_lenW (op : BitVec 4) (e : CmdError) (s : State) : (fail op e s).lenW = s.lenW := rfl
@[simp] theorem fail_pkt (op : BitVec 4) (e : CmdError) (s : State) : (fail op e s).pkt = s.pkt := rfl
@[simp] theorem fail_status (op : BitVec 4) (e : CmdError) (s : State) : (fail op e s).status = packStatus false (errCode e.kind) e.field op := rfl
@[simp] theorem fail_errInfo (op : BitVec 4) (e : CmdError) (s : State) : (fail op e s).errInfo = e.info := rfl
@[simp] theorem fail_xferLen (op : BitVec 4) (e : CmdError) (s : State) : (fail op e s).xferLen = 0 := rfl
@[simp] theorem fail_remLen (op : BitVec 4) (e : CmdError) (s : State) : (fail op e s).remLen = 0 := rfl
@[simp] theorem fail_inLen (op : BitVec 4) (e : CmdError) (s : State) : (fail op e s).inLen = s.inLen := rfl
@[simp] theorem fail_outCap (op : BitVec 4) (e : CmdError) (s : State) : (fail op e s).outCap = s.outCap := rfl
@[simp] theorem fail_ibuf (op : BitVec 4) (e : CmdError) (s : State) : (fail op e s).ibuf = s.ibuf := rfl
@[simp] theorem fail_obuf (op : BitVec 4) (e : CmdError) (s : State) : (fail op e s).obuf = s.obuf := rfl
@[simp] theorem fail_seq (op : BitVec 4) (e : CmdError) (s : State) : (fail op e s).seq = none := rfl
@[simp] theorem fail_host (op : BitVec 4) (e : CmdError) (s : State) : (fail op e s).host = s.host := rfl
@[simp] theorem fail_rdata (op : BitVec 4) (e : CmdError) (s : State) : (fail op e s).rdata = s.rdata := rfl

@[simp] theorem succeed_lenW (op : BitVec 4) (x r : Nat) (s : State) : (succeed op x r s).lenW = s.lenW := rfl
@[simp] theorem succeed_pkt (op : BitVec 4) (x r : Nat) (s : State) : (succeed op x r s).pkt = s.pkt := rfl
@[simp] theorem succeed_status (op : BitVec 4) (x r : Nat) (s : State) : (succeed op x r s).status = packStatus true 0#3 0#2 op := rfl
@[simp] theorem succeed_errInfo (op : BitVec 4) (x r : Nat) (s : State) : (succeed op x r s).errInfo = 0 := rfl
@[simp] theorem succeed_xferLen (op : BitVec 4) (x r : Nat) (s : State) : (succeed op x r s).xferLen = x := rfl
@[simp] theorem succeed_remLen (op : BitVec 4) (x r : Nat) (s : State) : (succeed op x r s).remLen = r := rfl
@[simp] theorem succeed_inLen (op : BitVec 4) (x r : Nat) (s : State) : (succeed op x r s).inLen = s.inLen := rfl
@[simp] theorem succeed_outCap (op : BitVec 4) (x r : Nat) (s : State) : (succeed op x r s).outCap = s.outCap := rfl
@[simp] theorem succeed_ibuf (op : BitVec 4) (x r : Nat) (s : State) : (succeed op x r s).ibuf = s.ibuf := rfl
@[simp] theorem succeed_obuf (op : BitVec 4) (x r : Nat) (s : State) : (succeed op x r s).obuf = s.obuf := rfl
@[simp] theorem succeed_seq (op : BitVec 4) (x r : Nat) (s : State) : (succeed op x r s).seq = none := rfl
@[simp] theorem succeed_host (op : BitVec 4) (x r : Nat) (s : State) : (succeed op x r s).host = s.host := rfl
@[simp] theorem succeed_rdata (op : BitVec 4) (x r : Nat) (s : State) : (succeed op x r s).rdata = s.rdata := rfl

@[simp] theorem start_lenW (op : BitVec 4) (s : State) : (start op s).lenW = s.lenW := rfl
@[simp] theorem start_pkt (op : BitVec 4) (s : State) : (start op s).pkt = s.pkt := rfl
@[simp] theorem start_status (op : BitVec 4) (s : State) : (start op s).status = s.status := rfl
@[simp] theorem start_errInfo (op : BitVec 4) (s : State) : (start op s).errInfo = s.errInfo := rfl
@[simp] theorem start_xferLen (op : BitVec 4) (s : State) : (start op s).xferLen = s.xferLen := rfl
@[simp] theorem start_remLen (op : BitVec 4) (s : State) : (start op s).remLen = s.remLen := rfl
@[simp] theorem start_inLen (op : BitVec 4) (s : State) : (start op s).inLen = s.inLen := rfl
@[simp] theorem start_outCap (op : BitVec 4) (s : State) : (start op s).outCap = s.outCap := rfl
@[simp] theorem start_ibuf (op : BitVec 4) (s : State) : (start op s).ibuf = s.ibuf := rfl
@[simp] theorem start_obuf (op : BitVec 4) (s : State) : (start op s).obuf = s.obuf := rfl
@[simp] theorem start_seq (op : BitVec 4) (s : State) : (start op s).seq = some { op := op, cur := 0, rem := 0, pkt := Packet.zero } := rfl
@[simp] theorem start_host (op : BitVec 4) (s : State) : (start op s).host = s.host := rfl
@[simp] theorem start_rdata (op : BitVec 4) (s : State) : (start op s).rdata = s.rdata := rfl

@[simp] theorem setSeq_lenW (q : Seq) (s : State) : (setSeq q s).lenW = s.lenW := rfl
@[simp] theorem setSeq_pkt (q : Seq) (s : State) : (setSeq q s).pkt = s.pkt := rfl
@[simp] theorem setSeq_status (q : Seq) (s : State) : (setSeq q s).status = s.status := rfl
@[simp] theorem setSeq_errInfo (q : Seq) (s : State) : (setSeq q s).errInfo = s.errInfo := rfl
@[simp] theorem setSeq_xferLen (q : Seq) (s : State) : (setSeq q s).xferLen = s.xferLen := rfl
@[simp] theorem setSeq_remLen (q : Seq) (s : State) : (setSeq q s).remLen = s.remLen := rfl
@[simp] theorem setSeq_inLen (q : Seq) (s : State) : (setSeq q s).inLen = s.inLen := rfl
@[simp] theorem setSeq_outCap (q : Seq) (s : State) : (setSeq q s).outCap = s.outCap := rfl
@[simp] theorem setSeq_ibuf (q : Seq) (s : State) : (setSeq q s).ibuf = s.ibuf := rfl
@[simp] theorem setSeq_obuf (q : Seq) (s : State) : (setSeq q s).obuf = s.obuf := rfl
@[simp] theorem setSeq_seq (q : Seq) (s : State) : (setSeq q s).seq = some q := rfl
@[simp] theorem setSeq_host (q : Seq) (s : State) : (setSeq q s).host = s.host := rfl
@[simp] theorem setSeq_rdata (q : Seq) (s : State) : (setSeq q s).rdata = s.rdata := rfl

@[simp] theorem resetBlock_lenW (s : State) : (resetBlock s).lenW = s.lenW := rfl
@[simp] theorem resetBlock_pkt (s : State) : (resetBlock s).pkt = Packet.zero := rfl
@[simp] theorem resetBlock_status (s : State) : (resetBlock s).status = 0 := rfl
@[simp] theorem resetBlock_errInfo (s : State) : (resetBlock s).errInfo = 0 := rfl
@[simp] theorem resetBlock_xferLen (s : State) : (resetBlock s).xferLen = 0 := rfl
@[simp] theorem resetBlock_remLen (s : State) : (resetBlock s).remLen = 0 := rfl
@[simp] theorem resetBlock_inLen (s : State) : (resetBlock s).inLen = 0 := rfl
@[simp] theorem resetBlock_outCap (s : State) : (resetBlock s).outCap = 0 := rfl
@[simp] theorem resetBlock_ibuf (s : State) : (resetBlock s).ibuf = s.ibuf := rfl
@[simp] theorem resetBlock_obuf (s : State) : (resetBlock s).obuf = s.obuf := rfl
@[simp] theorem resetBlock_seq (s : State) : (resetBlock s).seq = none := rfl
@[simp] theorem resetBlock_host (s : State) : (resetBlock s).host = s.host := rfl
@[simp] theorem resetBlock_rdata (s : State) : (resetBlock s).rdata = s.rdata := rfl

@[simp] theorem resetCut_lenW (s : State) : (resetCut s).lenW = s.lenW := rfl
@[simp] theorem resetCut_pkt (s : State) : (resetCut s).pkt = Packet.zero := rfl
@[simp] theorem resetCut_status (s : State) : (resetCut s).status = 0 := rfl
@[simp] theorem resetCut_errInfo (s : State) : (resetCut s).errInfo = 0 := rfl
@[simp] theorem resetCut_xferLen (s : State) : (resetCut s).xferLen = 0 := rfl
@[simp] theorem resetCut_remLen (s : State) : (resetCut s).remLen = 0 := rfl
@[simp] theorem resetCut_inLen (s : State) : (resetCut s).inLen = 0 := rfl
@[simp] theorem resetCut_outCap (s : State) : (resetCut s).outCap = 0 := rfl
@[simp] theorem resetCut_ibuf (s : State) : (resetCut s).ibuf = s.ibuf := rfl
@[simp] theorem resetCut_obuf (s : State) : (resetCut s).obuf = s.obuf.scramble := rfl
@[simp] theorem resetCut_seq (s : State) : (resetCut s).seq = none := rfl
@[simp] theorem resetCut_host (s : State) : (resetCut s).host = s.host := rfl
@[simp] theorem resetCut_rdata (s : State) : (resetCut s).rdata = s.rdata := rfl

@[simp] theorem Memory.write_epoch (m : Memory) (a : Nat) (v : Byte) : (m.write a v).epoch = m.epoch := rfl
@[simp] theorem Memory.write_cells (m : Memory) (a : Nat) (v : Byte) : (m.write a v).cells = insertCell a v m.cells := rfl
@[simp] theorem Memory.scramble_cells (m : Memory) : m.scramble.cells = [] := rfl
@[simp] theorem Memory.scramble_epoch (m : Memory) : m.scramble.epoch = m.epoch + 1 := rfl

end Sys2Proof.Machine
end

