-- ==== Sys2Proof/Laws/Memory.lean ====
section
/-! SUPPORT. The laws of the two buffers: a read after a write, the canonical form and the address range kept by every operation, and
what a run of bytes written leaves at each address. -/

namespace Sys2Proof.Machine

/-! ## Cells -/

theorem findCell_insertCell (a x : Nat) (v : Byte) (l : List Host.Cell) :
    findCell x (insertCell a v l) = if x = a then some v else findCell x l := by
  induction l with
  | nil => simp [insertCell, findCell, eq_comm]
  | cons c r ih =>
    obtain ⟨k, b⟩ := c
    simp only [insertCell]
    split
    · simp [findCell, eq_comm]
    · split
      · subst_vars
        by_cases h : x = k <;> simp [findCell, h, eq_comm]
      · simp only [findCell, ih]
        by_cases hk : k = x
        · subst hk
          simp_all [eq_comm]
        · simp [hk]

/-- The head of the cells bounds every address, for the canonical form. -/
def aboveCells (n : Nat) : List Host.Cell → Bool
  | [] => true
  | (k, _) :: _ => decide (n < k)

theorem risingCells_cons (k : Nat) (b : Byte) (r : List Host.Cell) :
    risingCells ((k, b) :: r) = (aboveCells k r && risingCells r) := by
  cases r with
  | nil => rfl
  | cons c r => rfl

theorem aboveCells_insertCell (n a : Nat) (v : Byte) (l : List Host.Cell) (hn : n < a) (h : aboveCells n l = true) :
    aboveCells n (insertCell a v l) = true := by
  cases l with
  | nil => simpa [insertCell, aboveCells] using hn
  | cons c r =>
    obtain ⟨k, b⟩ := c
    simp only [insertCell]
    split
    · simpa [aboveCells] using hn
    · split
      · simpa [aboveCells] using hn
      · simpa [aboveCells] using h

theorem risingCells_insertCell (a : Nat) (v : Byte) (l : List Host.Cell) (h : risingCells l = true) :
    risingCells (insertCell a v l) = true := by
  induction l with
  | nil => rfl
  | cons c r ih =>
    obtain ⟨k, b⟩ := c
    rw [risingCells_cons, Bool.and_eq_true] at h
    simp only [insertCell]
    split
    · rw [risingCells_cons, risingCells_cons, h.1, h.2]
      simpa [aboveCells]
    · split
      · subst_vars
        rw [risingCells_cons, h.1, h.2]
        rfl
      · rw [risingCells_cons, ih h.2, Bool.and_true]
        exact aboveCells_insertCell _ _ _ _ (by omega) h.1

theorem all_insertCell (p : Host.Cell → Bool) (a : Nat) (v : Byte) (l : List Host.Cell) (hp : p (a, v) = true)
    (h : l.all p = true) : (insertCell a v l).all p = true := by
  induction l with
  | nil => simpa [insertCell] using hp
  | cons c r ih =>
    obtain ⟨k, b⟩ := c
    rw [List.all_cons, Bool.and_eq_true] at h
    simp only [insertCell]
    split
    · simp [hp, h.1, h.2]
    · split
      · simp [hp, h.2]
      · simp [h.1, ih h.2]

/-! ## One byte -/

theorem byte_write (b : BufId) (m : Memory) (a x : Nat) (v : Byte) :
    (m.write a v).byte b x = if x = a then v else m.byte b x := by
  simp only [Memory.byte, Memory.write_cells, findCell_insertCell, Memory.write_epoch]
  split <;> simp

theorem wf_write (m : Memory) (a : Nat) (v : Byte) (h : m.wf = true) : (m.write a v).wf = true :=
  risingCells_insertCell a v m.cells h

theorem inRange_write (n : Nat) (m : Memory) (a : Nat) (v : Byte) (ha : a < 2 ^ n) (h : m.inRange n = true) :
    (m.write a v).inRange n = true :=
  all_insertCell _ a v m.cells (by simpa using ha) h

theorem wf_scramble (m : Memory) : m.scramble.wf = true := rfl

theorem inRange_scramble (n : Nat) (m : Memory) : m.scramble.inRange n = true := rfl

/-! ## A run of bytes -/

@[simp] theorem writeBytes_epoch (m : Memory) (a : Nat) (bs : List Byte) : (m.writeBytes a bs).epoch = m.epoch := by
  induction bs generalizing m a with
  | nil => rfl
  | cons v vs ih => simp [Memory.writeBytes, ih]

/-- What a run of bytes leaves at each address: the byte of the run there, elsewhere what was there before. -/
theorem byte_writeBytes (b : BufId) (m : Memory) (a x : Nat) (bs : List Byte) :
    (m.writeBytes a bs).byte b x = if a ≤ x then bs.getD (x - a) (m.byte b x) else m.byte b x := by
  induction bs generalizing m a with
  | nil => simp [Memory.writeBytes]
  | cons v vs ih =>
    simp only [Memory.writeBytes, ih, byte_write]
    rcases Nat.lt_trichotomy x a with h | h | h
    · simp [Nat.not_le.mpr h, show ¬ a + 1 ≤ x by omega, Nat.ne_of_lt h]
    · subst h
      simp
    · obtain ⟨d, rfl⟩ : ∃ d, x = a + 1 + d := ⟨x - (a + 1), by omega⟩
      simp [show a + 1 + d - a = d + 1 by omega, show a ≤ a + 1 + d by omega, show a + 1 + d ≠ a by omega]

theorem wf_writeBytes (m : Memory) (a : Nat) (bs : List Byte) (h : m.wf = true) : (m.writeBytes a bs).wf = true := by
  induction bs generalizing m a with
  | nil => exact h
  | cons v vs ih => exact ih _ _ (wf_write m a v h)

theorem inRange_writeBytes (n : Nat) (m : Memory) (a : Nat) (bs : List Byte) (ha : a + bs.length ≤ 2 ^ n)
    (h : m.inRange n = true) : (m.writeBytes a bs).inRange n = true := by
  induction bs generalizing m a with
  | nil => exact h
  | cons v vs ih =>
    rw [List.length_cons] at ha
    exact ih _ _ (by omega) (inRange_write n m a v (by omega) h)

theorem writeBytes_append (m : Memory) (a : Nat) (xs ys : List Byte) :
    m.writeBytes a (xs ++ ys) = (m.writeBytes a xs).writeBytes (a + xs.length) ys := by
  induction xs generalizing m a with
  | nil => rfl
  | cons v vs ih =>
    rw [List.cons_append, Memory.writeBytes, ih, Memory.writeBytes, List.length_cons]
    congr 1
    omega

/-! ## Reading IBUF -/

@[simp] theorem inBytes_length (s : State) (a n : Nat) : (inBytes s a n).length = n := by simp [inBytes]

/-- Two states whose IBUF bytes agree over a range read the same bytes there. -/
theorem inBytes_congr (s t : State) (a n : Nat) (h : ∀ k, k < n → s.inByte (a + k) = t.inByte (a + k)) :
    inBytes s a n = inBytes t a n := by
  refine List.map_congr_left fun k hk => h k ?_
  exact List.mem_range.mp hk

end Sys2Proof.Machine
end

