-- ==== Sys2Proof/Laws/Ops.lean ====
section
/-! SUPPORT. One lemma per stage of the field sequencer, saying all it can do: nothing when no command is in progress (`_none`), and
its effect on the command in progress (`_some`), as an update of the state. -/

namespace Sys2Proof.Machine

variable {s : State} {q : Seq}

/-! ## The combinators -/

theorem withSeq_none (k : Seq → State → State) (h : s.seq = none) : withSeq k s = s := by simp [withSeq, h]

theorem withSeq_some (k : Seq → State → State) (h : s.seq = some q) : withSeq k s = k q s := by simp [withSeq, h]

theorem raise_none (e : CmdError) (h : s.seq = none) : raise e s = s := withSeq_none _ h

theorem raise_some (e : CmdError) (h : s.seq = some q) : raise e s = fail q.op e s := withSeq_some _ h

theorem raiseIf_none (bad : Seq → State → Bool) (e : Seq → State → CmdError) (h : s.seq = none) : raiseIf bad e s = s :=
  withSeq_none _ h

theorem raiseIf_some (bad : Seq → State → Bool) (e : Seq → State → CmdError) (h : s.seq = some q) :
    raiseIf bad e s = if bad q s then fail q.op (e q s) s else s := withSeq_some _ h

theorem ifSel_none (sel : Packet → Bool) (k : State → State) (h : s.seq = none) : ifSel sel k s = s := withSeq_none _ h

theorem ifSel_some (sel : Packet → Bool) (k : State → State) (h : s.seq = some q) :
    ifSel sel k s = if sel q.pkt then k s else s := withSeq_some _ h

theorem emit_none (f : State → List Byte) (h : s.seq = none) : emit f s = s := withSeq_none _ h

theorem emit_some (f : State → List Byte) (h : s.seq = some q) :
    emit f s = { s with obuf := s.obuf.writeBytes q.cur (f s), seq := some { q with cur := q.cur + (f s).length } } :=
  withSeq_some _ h

theorem emitIf_none (sel : Packet → Bool) (f : State → List Byte) (h : s.seq = none) : emitIf sel f s = s := withSeq_none _ h

theorem emitIf_some (sel : Packet → Bool) (f : State → List Byte) (h : s.seq = some q) :
    emitIf sel f s = if sel s.pkt then emit f s else s := withSeq_some _ h

/-! ## The ends of a command -/

theorem finishDecode_none (x : Nat) (h : s.seq = none) : finishDecode x s = s := withSeq_none _ h

theorem finishDecode_some (x : Nat) (h : s.seq = some q) : finishDecode x s = succeed q.op x (s.inLen - x) s := withSeq_some _ h

theorem finishEncode_none (x : Nat) (h : s.seq = none) : finishEncode x s = s := withSeq_none _ h

theorem finishEncode_some (x : Nat) (h : s.seq = some q) : finishEncode x s = succeed q.op x 0 s := withSeq_some _ h

/-! ## The bounds checks -/

theorem needBytes_none (n : Nat) (h : s.seq = none) : needBytes n s = s := raiseIf_none _ _ h

theorem needBytes_some (n : Nat) (h : s.seq = some q) :
    needBytes n s = if s.inLen - q.cur < n then fail q.op (insufficientInput (n - (s.inLen - q.cur))) s else s := by
  simp [needBytes, raiseIf_some _ _ h]

theorem needRoom_none (n : Nat) (h : s.seq = none) : needRoom n s = s := raiseIf_none _ _ h

theorem needRoom_some (n : Nat) (h : s.seq = some q) :
    needRoom n s = if s.outCap < n then fail q.op outputTooSmall s else s := by
  simp [needRoom, raiseIf_some _ _ h]

/-- A reader either ends the command for want of bytes or runs its word's effect on the state unchanged. -/
theorem withSeq_needBytes (k : Seq → State → State) (n : Nat) (h : s.seq = some q) :
    withSeq k (needBytes n s) =
      if s.inLen - q.cur < n then fail q.op (insufficientInput (n - (s.inLen - q.cur))) s else k q s := by
  rw [needBytes_some n h]
  split
  · exact withSeq_none _ rfl
  · exact withSeq_some _ h

/-! ## The wire words -/

theorem takeHeader_some (ty : BitVec 4) (c t : BitVec 1) (tsi tsf : BitVec 2) (cnt : BitVec 4) (size : BitVec 16)
    (h : s.seq = some q) :
    takeHeader ty c t tsi tsf cnt size s = setSeq { q with
      cur := 4,
      pkt := { q.pkt with pktType := ty, cidPresent := c, trlPresent := t, tsiKind := tsi, tsfKind := tsf, pktCount := cnt,
                          pktSize := size } } s := withSeq_some _ h

theorem rejectType_some (code : Nat) (h : s.seq = some q) :
    rejectType code s = fail q.op (invalidEnumCode fieldPacketType code) s := withSeq_some _ h

theorem takeStreamId_some (v : BitVec 32) (h : s.seq = some q) :
    takeStreamId v s = setSeq { q with cur := q.cur + 4, rem := q.rem - 4, pkt := { q.pkt with streamId := v } } s :=
  withSeq_some _ h

theorem takeClassId_some (oui : BitVec 32) (icc pcc : BitVec 16) (h : s.seq = some q) :
    takeClassId oui icc pcc s = setSeq { q with
      cur := q.cur + 8, rem := q.rem - 8, pkt := { q.pkt with classOui := oui, classIcc := icc, classPcc := pcc } } s :=
  withSeq_some _ h

theorem takeTsi_some (v : BitVec 32) (h : s.seq = some q) :
    takeTsi v s = setSeq { q with cur := q.cur + 4, rem := q.rem - 4, pkt := { q.pkt with tsiVal := v } } s :=
  withSeq_some _ h

theorem takeTsf_some (v : BitVec 64) (h : s.seq = some q) :
    takeTsf v s = setSeq { q with cur := q.cur + 8, rem := q.rem - 8, pkt := { q.pkt with tsfVal := v } } s :=
  withSeq_some _ h

theorem takePayload_some (h : s.seq = some q) :
    takePayload s = setSeq { q with cur := q.cur + q.rem, pkt := { q.pkt with payOff := q.cur, payLen := q.rem } } s :=
  withSeq_some _ h

theorem takeTrailer_some (w : BitVec 32) (h : s.seq = some q) :
    takeTrailer w s = setSeq { q with cur := q.cur + 4, pkt := { q.pkt with trailer := w } } s := withSeq_some _ h

/-! ## The readers -/

/-- Only the packet type can be refused: tsi_kind and tsf_kind are two bits wide (40_enum_codecs.md R143, R145). -/
theorem decHeaderWord_eq (w : BitVec 32) (s : State) :
    decHeaderWord w s =
      if (hdrType w).toNat ≤ 5 then
        takeHeader (hdrType w) (hdrClassId w) (hdrTrailer w) (hdrTsi w) (hdrTsf w) (hdrCount w) (hdrSize w) s
      else rejectType (hdrType w).toNat s := by
  have h2 : (hdrTsi w).toNat ≤ 3 := by have := (hdrTsi w).isLt; omega
  have h3 : (hdrTsf w).toNat ≤ 3 := by have := (hdrTsf w).isLt; omega
  by_cases h1 : (hdrType w).toNat ≤ 5
  · simp [decHeaderWord, decPacketType, decTsiKind, decTsfKind, h1, h2, h3]
  · simp [decHeaderWord, decPacketType, rejectType, h1]

theorem readHeader_some (h : s.seq = some q) :
    readHeader s =
      if s.inLen - q.cur < 4 then fail q.op (insufficientInput (4 - (s.inLen - q.cur))) s
      else decHeaderWord (BitVec.ofNat 32 (memRead s q.cur 4)) s := withSeq_needBytes _ 4 h

theorem readStreamId_some (h : s.seq = some q) :
    readStreamId s =
      if s.inLen - q.cur < 4 then fail q.op (insufficientInput (4 - (s.inLen - q.cur))) s
      else takeStreamId (BitVec.ofNat 32 (memRead s q.cur 4)) s := withSeq_needBytes _ 4 h

theorem readClassId_some (h : s.seq = some q) :
    readClassId s =
      if s.inLen - q.cur < 8 then fail q.op (insufficientInput (8 - (s.inLen - q.cur))) s
      else takeClassId (BitVec.ofNat 32 (memRead s q.cur 4)) (BitVec.ofNat 16 (memRead s (q.cur + 4) 2))
        (BitVec.ofNat 16 (memRead s (q.cur + 6) 2)) s := withSeq_needBytes _ 8 h

theorem readTsi_some (h : s.seq = some q) :
    readTsi s =
      if s.inLen - q.cur < 4 then fail q.op (insufficientInput (4 - (s.inLen - q.cur))) s
      else takeTsi (BitVec.ofNat 32 (memRead s q.cur 4)) s := withSeq_needBytes _ 4 h

theorem readTsf_some (h : s.seq = some q) :
    readTsf s =
      if s.inLen - q.cur < 8 then fail q.op (insufficientInput (8 - (s.inLen - q.cur))) s
      else takeTsf (BitVec.ofNat 64 (memRead s q.cur 8)) s := withSeq_needBytes _ 8 h

theorem readTrailer_some (h : s.seq = some q) :
    readTrailer s =
      if s.inLen - q.cur < 4 then fail q.op (insufficientInput (4 - (s.inLen - q.cur))) s
      else takeTrailer (BitVec.ofNat 32 (memRead s q.cur 4)) s := withSeq_needBytes _ 4 h

/-! ## The stages of the families -/

theorem commitHeader_some (h : s.seq = some q) :
    commitHeader s = { s with pkt := { s.pkt with
      pktType := q.pkt.pktType, cidPresent := q.pkt.cidPresent, trlPresent := q.pkt.trlPresent, tsiKind := q.pkt.tsiKind,
      tsfKind := q.pkt.tsfKind, pktCount := q.pkt.pktCount, pktSize := q.pkt.pktSize } } := withSeq_some _ h

theorem commitClassId_some (h : s.seq = some q) :
    commitClassId s = { s with pkt := { s.pkt with
      classOui := q.pkt.classOui, classIcc := q.pkt.classIcc, classPcc := q.pkt.classPcc } } := withSeq_some _ h

theorem commitTrailer_some (h : s.seq = some q) :
    commitTrailer s = { s with pkt := { s.pkt with trailer := q.pkt.trailer } } := withSeq_some _ h

theorem commitPacket_some (h : s.seq = some q) : commitPacket s = { s with pkt := q.pkt } := withSeq_some _ h

theorem checkTotal_some (h : s.seq = some q) :
    checkTotal s =
      if s.inLen < declaredBytes q then fail q.op (insufficientInput (declaredBytes q - s.inLen)) s else s := by
  simp [checkTotal, raiseIf_some _ _ h]

theorem checkOverhead_some (h : s.seq = some q) :
    checkOverhead s = if declaredBytes q < overhead q.pkt then fail q.op integerConversionOverflow s else s := by
  simp [checkOverhead, raiseIf_some _ _ h]

theorem initRem_some (h : s.seq = some q) :
    initRem s = setSeq { q with rem := declaredBytes q - 4 - widthIf (selT q.pkt) 4 } s := withSeq_some _ h

theorem finishPacket_some (h : s.seq = some q) :
    finishPacket s = succeed q.op (declaredBytes q) (s.inLen - declaredBytes q) s := by
  rw [finishPacket, withSeq_some _ h, finishDecode_some _ h]

theorem checkWholeWords_some (h : s.seq = some q) :
    checkWholeWords s = if s.pkt.payLen % 4 ≠ 0 then fail q.op integerConversionOverflow s else s := by
  rw [checkWholeWords, raiseIf_some _ _ h]
  simp only [decide_eq_true_eq]
  rfl

theorem checkPacketSize_some (h : s.seq = some q) :
    checkPacketSize s = if 65535 < assembledWords s.pkt then fail q.op integerConversionOverflow s else s := by
  rw [checkPacketSize, raiseIf_some _ _ h]
  simp only [decide_eq_true_eq]
  rfl

theorem checkPayloadView_some (h : s.seq = some q) :
    checkPayloadView s =
      if s.inLen < s.pkt.payOff + s.pkt.payLen then
        fail q.op (insufficientInput (s.pkt.payOff + s.pkt.payLen - s.inLen)) s
      else s := by
  simp [checkPayloadView, raiseIf_some _ _ h]

theorem checkCapacity_some (h : s.seq = some q) :
    checkCapacity s = if s.outCap < assembledBytes s.pkt then fail q.op outputTooSmall s else s := by
  rw [checkCapacity, withSeq_some _ h, needRoom_some _ h]

theorem finishAssembly_some (h : s.seq = some q) :
    finishAssembly s = succeed q.op (assembledBytes s.pkt) 0 s := by
  rw [finishAssembly, withSeq_some _ h, finishEncode_some _ h]

/-! ## A stage when no command is in progress -/

theorem readHeader_none (h : s.seq = none) : readHeader s = s := by
  rw [readHeader, needBytes_none _ h, withSeq_none _ h]

theorem readStreamId_none (h : s.seq = none) : readStreamId s = s := by
  rw [readStreamId, needBytes_none _ h, withSeq_none _ h]

theorem readClassId_none (h : s.seq = none) : readClassId s = s := by
  rw [readClassId, needBytes_none _ h, withSeq_none _ h]

theorem readTsi_none (h : s.seq = none) : readTsi s = s := by rw [readTsi, needBytes_none _ h, withSeq_none _ h]

theorem readTsf_none (h : s.seq = none) : readTsf s = s := by rw [readTsf, needBytes_none _ h, withSeq_none _ h]

theorem readTrailer_none (h : s.seq = none) : readTrailer s = s := by
  rw [readTrailer, needBytes_none _ h, withSeq_none _ h]

/-- Once a command has failed, the rest of DEC_PKT changes nothing. -/
theorem decPkt_tail_none (h : s.seq = none) :
    (s |> ifSel selS readStreamId |> ifSel selC readClassId |> ifSel selI readTsi |> ifSel selF readTsf |> takePayload
      |> ifSel selT readTrailer |> commitPacket |> finishPacket) = s := by
  simp only [ifSel, takePayload, commitPacket, finishPacket, withSeq_none _ h]

/-- Once a command has failed, the emission of ENC_PKT changes nothing. -/
theorem encPkt_tail_none (h : s.seq = none) :
    (s |> emit (fun s => headerBytes s.pkt (BitVec.ofNat 16 (assembledWords s.pkt)))
      |> emitIf selS (fun s => beBytes 4 s.pkt.streamId.toNat) |> emitIf selC (fun s => classIdBytes s.pkt)
      |> emitIf selI (fun s => beBytes 4 s.pkt.tsiVal.toNat) |> emitIf selF (fun s => beBytes 8 s.pkt.tsfVal.toNat)
      |> emit (fun s => inBytes s s.pkt.payOff s.pkt.payLen) |> emitIf selT (fun s => beBytes 4 s.pkt.trailer.toNat)
      |> finishAssembly) = s := by
  simp only [emit, emitIf, finishAssembly, withSeq_none _ h]

end Sys2Proof.Machine
end

