-- ==== Sys2Proof/Laws/PerInstr.lean ====
section
/-! SUPPORT. The family RoundTrip: the decoder reads back every well-formed instruction the encoder writes, whatever bytes follow it
(30_encoding.md R101 to R120), one lemma per constructor. -/

namespace Sys2Proof.Laws.RoundTrip

/-- The decoder at the instruction's position reads it back from its bytes and leaves the bytes after it. -/
def Statement (i : Instr) : Prop :=
  i.wellFormed = true → ∀ rest : List Byte, decode i.position (encode i ++ rest) = .ok (i, rest)

/-- The decoder on written bytes reads the number written, cut to the position's width. -/
theorem decode_beBytes (p : Position) (v : Nat) (rest : List Byte) :
    decode p (beBytes p.size v ++ rest) = .ok (decodeNumber p (v % 256 ^ p.size), rest) := by
  have hl : (beBytes p.size v).length = p.size := beBytes_length _ _
  rw [decode, if_neg (by simp), List.take_left' hl, List.drop_left' hl, beNat_beBytes]

/-- The round trip of an instruction whose number fits its position and decodes to it. -/
theorem of_number (i : Instr) (hlt : encodeNumber i < 256 ^ i.position.size)
    (h : decodeNumber i.position (encodeNumber i) = i) : Statement i := by
  intro _ rest
  rw [encode, decode_beBytes, Nat.mod_eq_of_lt hlt, h]

theorem toNat_lt_256_pow {w n : Nat} (v : BitVec w) (h : w = 8 * n) : v.toNat < 256 ^ n := by
  subst h
  have := v.isLt
  rwa [Nat.pow_mul] at this

/-- A legal header row: its word's type bits select it. -/
theorem decodeHeader_headerWord (ty cnt : BitVec 4) (c t : BitVec 1) (tsi tsf : BitVec 2) (size : BitVec 16) (i : Instr)
    (h : ∀ w, hdrType w = ty → hdrClassId w = c → hdrTrailer w = t → hdrTsi w = tsi → hdrTsf w = tsf → hdrCount w = cnt →
      hdrSize w = size → decodeHeader w = i) :
    decodeNumber .header (headerWord ty c t tsi tsf cnt size).toNat = i := by
  rw [decodeNumber, BitVec.ofNat_toNat, BitVec.setWidth_eq]
  exact h _ (by simp) (by simp) (by simp) (by simp) (by simp) (by simp) (by simp)

theorem nop : Statement .nop := of_number _ (by decide) (by decide)
theorem decHdr : Statement .decHdr := of_number _ (by decide) (by decide)
theorem encHdr : Statement .encHdr := of_number _ (by decide) (by decide)
theorem decCid : Statement .decCid := of_number _ (by decide) (by decide)
theorem encCid : Statement .encCid := of_number _ (by decide) (by decide)
theorem decTrl : Statement .decTrl := of_number _ (by decide) (by decide)
theorem encTrl : Statement .encTrl := of_number _ (by decide) (by decide)
theorem decPkt : Statement .decPkt := of_number _ (by decide) (by decide)
theorem encPkt : Statement .encPkt := of_number _ (by decide) (by decide)
theorem reserved9 : Statement .reserved9 := of_number _ (by decide) (by decide)
theorem reservedA : Statement .reservedA := of_number _ (by decide) (by decide)
theorem reservedB : Statement .reservedB := of_number _ (by decide) (by decide)
theorem reservedC : Statement .reservedC := of_number _ (by decide) (by decide)
theorem reservedD : Statement .reservedD := of_number _ (by decide) (by decide)
theorem reservedE : Statement .reservedE := of_number _ (by decide) (by decide)
theorem reservedF : Statement .reservedF := of_number _ (by decide) (by decide)

theorem hdrData (c t : BitVec 1) (tsi tsf : BitVec 2) (cnt : BitVec 4) (size : BitVec 16) :
    Statement (.hdrData c t tsi tsf cnt size) :=
  of_number _ (toNat_lt_256_pow _ rfl) (decodeHeader_headerWord _ _ _ _ _ _ _ _ (by
    rintro w ht rfl rfl rfl rfl rfl rfl
    simp [decodeHeader, ht]))

theorem hdrDataSid (c t : BitVec 1) (tsi tsf : BitVec 2) (cnt : BitVec 4) (size : BitVec 16) :
    Statement (.hdrDataSid c t tsi tsf cnt size) :=
  of_number _ (toNat_lt_256_pow _ rfl) (decodeHeader_headerWord _ _ _ _ _ _ _ _ (by
    rintro w ht rfl rfl rfl rfl rfl rfl
    simp [decodeHeader, ht]))

theorem hdrExtData (c t : BitVec 1) (tsi tsf : BitVec 2) (cnt : BitVec 4) (size : BitVec 16) :
    Statement (.hdrExtData c t tsi tsf cnt size) :=
  of_number _ (toNat_lt_256_pow _ rfl) (decodeHeader_headerWord _ _ _ _ _ _ _ _ (by
    rintro w ht rfl rfl rfl rfl rfl rfl
    simp [decodeHeader, ht]))

theorem hdrExtDataSid (c t : BitVec 1) (tsi tsf : BitVec 2) (cnt : BitVec 4) (size : BitVec 16) :
    Statement (.hdrExtDataSid c t tsi tsf cnt size) :=
  of_number _ (toNat_lt_256_pow _ rfl) (decodeHeader_headerWord _ _ _ _ _ _ _ _ (by
    rintro w ht rfl rfl rfl rfl rfl rfl
    simp [decodeHeader, ht]))

theorem hdrContext (c t : BitVec 1) (tsi tsf : BitVec 2) (cnt : BitVec 4) (size : BitVec 16) :
    Statement (.hdrContext c t tsi tsf cnt size) :=
  of_number _ (toNat_lt_256_pow _ rfl) (decodeHeader_headerWord _ _ _ _ _ _ _ _ (by
    rintro w ht rfl rfl rfl rfl rfl rfl
    simp [decodeHeader, ht]))

theorem hdrExtContext (c t : BitVec 1) (tsi tsf : BitVec 2) (cnt : BitVec 4) (size : BitVec 16) :
    Statement (.hdrExtContext c t tsi tsf cnt size) :=
  of_number _ (toNat_lt_256_pow _ rfl) (decodeHeader_headerWord _ _ _ _ _ _ _ _ (by
    rintro w ht rfl rfl rfl rfl rfl rfl
    simp [decodeHeader, ht]))

theorem hdrIllegal67 (code : BitVec 4) : Statement (.hdrIllegal67 code) := by
  intro hw
  refine of_number _ (toNat_lt_256_pow _ rfl) (decodeHeader_headerWord _ _ _ _ _ _ _ _ ?_) hw
  rintro w ht - - - - - -
  simp only [Instr.wellFormed, illegalCode67, Bool.or_eq_true, beq_iff_eq] at hw
  rcases hw with rfl | rfl <;> simp [decodeHeader, ht]

theorem hdrIllegal815 (code : BitVec 4) : Statement (.hdrIllegal815 code) := by
  intro hw
  refine of_number _ (toNat_lt_256_pow _ rfl) (decodeHeader_headerWord _ _ _ _ _ _ _ _ ?_) hw
  rintro w ht - - - - - -
  simp only [Instr.wellFormed, illegalCode815, decide_eq_true_eq] at hw
  simp only [decodeHeader, ht]
  split <;> first | omega | rfl

theorem streamId (v : BitVec 32) : Statement (.streamId v) :=
  of_number _ (toNat_lt_256_pow _ rfl) (by simp [Instr.position, decodeNumber, encodeNumber])

theorem classId (oui : BitVec 32) (icc pcc : BitVec 16) : Statement (.classId oui icc pcc) :=
  of_number _ (toNat_lt_256_pow _ rfl) (by
    simp only [Instr.position, decodeNumber, encodeNumber, decodeClassId, BitVec.ofNat_toNat, BitVec.setWidth_eq,
      Instr.classId.injEq]
    refine ⟨?_, ?_, ?_⟩ <;>
    · apply BitVec.eq_of_getLsbD_eq
      intro i hi
      simp only [BitVec.getLsbD_extractLsb', BitVec.getLsbD_append]
      interval_cases i <;> simp)

theorem tsiValue (v : BitVec 32) : Statement (.tsiValue v) :=
  of_number _ (toNat_lt_256_pow _ rfl) (by simp [Instr.position, decodeNumber, encodeNumber])

theorem tsfValue (v : BitVec 64) : Statement (.tsfValue v) :=
  of_number _ (toNat_lt_256_pow _ rfl) (by simp [Instr.position, decodeNumber, encodeNumber])

theorem trailer (f : TrailerFields) : Statement (.trailer f) :=
  of_number _ (toNat_lt_256_pow _ rfl) (by
    simp [Instr.position, decodeNumber, encodeNumber, trailerFields_trailerWord])

end Sys2Proof.Laws.RoundTrip
end

