-- ==== Sys2Proof/Laws/Wire.lean ====
section
/-! SUPPORT. The model's big-endian reads and writes are the concatenations of the wire format written out in Safety.lean (20_memory.md
R72), and its packet lengths the formulas of 44_packet_parser.md R183. -/

namespace Sys2Proof.Machine

/-! ## The ends of a command, by the value of STATUS -/

theorem fail_eq_failed (op : BitVec 4) (e : CmdError) (s : State) :
    fail op e s = s.failed (packStatus false (errCode e.kind) e.field op) e.info := rfl

theorem succeed_eq_succeeded (op : BitVec 4) (x r : Nat) (s : State) :
    succeed op x r s = s.succeeded (packStatus true 0#3 0#2 op) x r := rfl

/-- The command's working state does not survive its failure. -/
theorem failed_start (op : BitVec 4) (w : BitVec 32) (info : Nat) (s : State) : (start op s).failed w info = s.failed w info := rfl

@[simp] theorem failed_lenW (s : State) (w : BitVec 32) (info : Nat) : (s.failed w info).lenW = s.lenW := rfl
@[simp] theorem failed_pkt (s : State) (w : BitVec 32) (info : Nat) : (s.failed w info).pkt = s.pkt := rfl
@[simp] theorem failed_status (s : State) (w : BitVec 32) (info : Nat) : (s.failed w info).status = w := rfl
@[simp] theorem failed_errInfo (s : State) (w : BitVec 32) (info : Nat) : (s.failed w info).errInfo = info := rfl
@[simp] theorem failed_xferLen (s : State) (w : BitVec 32) (info : Nat) : (s.failed w info).xferLen = 0 := rfl
@[simp] theorem failed_remLen (s : State) (w : BitVec 32) (info : Nat) : (s.failed w info).remLen = 0 := rfl
@[simp] theorem failed_inLen (s : State) (w : BitVec 32) (info : Nat) : (s.failed w info).inLen = s.inLen := rfl
@[simp] theorem failed_outCap (s : State) (w : BitVec 32) (info : Nat) : (s.failed w info).outCap = s.outCap := rfl
@[simp] theorem failed_ibuf (s : State) (w : BitVec 32) (info : Nat) : (s.failed w info).ibuf = s.ibuf := rfl
@[simp] theorem failed_obuf (s : State) (w : BitVec 32) (info : Nat) : (s.failed w info).obuf = s.obuf := rfl
@[simp] theorem failed_seq (s : State) (w : BitVec 32) (info : Nat) : (s.failed w info).seq = none := rfl
@[simp] theorem failed_host (s : State) (w : BitVec 32) (info : Nat) : (s.failed w info).host = s.host := rfl
@[simp] theorem failed_rdata (s : State) (w : BitVec 32) (info : Nat) : (s.failed w info).rdata = s.rdata := rfl

@[simp] theorem succeeded_lenW (s : State) (w : BitVec 32) (x r : Nat) : (s.succeeded w x r).lenW = s.lenW := rfl
@[simp] theorem succeeded_pkt (s : State) (w : BitVec 32) (x r : Nat) : (s.succeeded w x r).pkt = s.pkt := rfl
@[simp] theorem succeeded_status (s : State) (w : BitVec 32) (x r : Nat) : (s.succeeded w x r).status = w := rfl
@[simp] theorem succeeded_errInfo (s : State) (w : BitVec 32) (x r : Nat) : (s.succeeded w x r).errInfo = 0 := rfl
@[simp] theorem succeeded_xferLen (s : State) (w : BitVec 32) (x r : Nat) : (s.succeeded w x r).xferLen = x := rfl
@[simp] theorem succeeded_remLen (s : State) (w : BitVec 32) (x r : Nat) : (s.succeeded w x r).remLen = r := rfl
@[simp] theorem succeeded_inLen (s : State) (w : BitVec 32) (x r : Nat) : (s.succeeded w x r).inLen = s.inLen := rfl
@[simp] theorem succeeded_outCap (s : State) (w : BitVec 32) (x r : Nat) : (s.succeeded w x r).outCap = s.outCap := rfl
@[simp] theorem succeeded_ibuf (s : State) (w : BitVec 32) (x r : Nat) : (s.succeeded w x r).ibuf = s.ibuf := rfl
@[simp] theorem succeeded_obuf (s : State) (w : BitVec 32) (x r : Nat) : (s.succeeded w x r).obuf = s.obuf := rfl
@[simp] theorem succeeded_seq (s : State) (w : BitVec 32) (x r : Nat) : (s.succeeded w x r).seq = none := rfl
@[simp] theorem succeeded_host (s : State) (w : BitVec 32) (x r : Nat) : (s.succeeded w x r).host = s.host := rfl
@[simp] theorem succeeded_rdata (s : State) (w : BitVec 32) (x r : Nat) : (s.succeeded w x r).rdata = s.rdata := rfl

/-! ## Reads -/

theorem memRead_two (s : State) (a : Nat) :
    memRead s a 2 = (s.inByte a).toNat * 256 + (s.inByte (a + 1)).toNat := by
  simp [memRead, inBytes, List.range_succ, beNat]

theorem memRead_four (s : State) (a : Nat) :
    memRead s a 4 = (s.inByte a).toNat * 256 ^ 3 + (s.inByte (a + 1)).toNat * 256 ^ 2 + (s.inByte (a + 2)).toNat * 256 +
      (s.inByte (a + 3)).toNat := by
  simp [memRead, inBytes, List.range_succ, beNat]
  omega

theorem memRead_eight (s : State) (a : Nat) : memRead s a 8 = memRead s a 4 * 2 ^ 32 + memRead s (a + 4) 4 := by
  simp [memRead, inBytes, List.range_succ, beNat, Nat.add_assoc]
  omega

theorem toNat_append_mul {m n : Nat} (x : BitVec m) (y : BitVec n) : (x ++ y).toNat = x.toNat * 2 ^ n + y.toNat := by
  rw [BitVec.toNat_append, Nat.shiftLeft_eq, Nat.mul_comm, ← Nat.two_pow_add_eq_or_of_lt y.isLt]

theorem toNat_halfAt (s : State) (a : Nat) : (halfAt s a).toNat = memRead s a 2 := by
  rw [halfAt, toNat_append_mul, memRead_two]
  omega

theorem toNat_wordAt (s : State) (a : Nat) : (wordAt s a).toNat = memRead s a 4 := by
  rw [wordAt, toNat_append_mul, toNat_append_mul, toNat_append_mul, memRead_four]
  omega

theorem toNat_longAt (s : State) (a : Nat) : (longAt s a).toNat = memRead s a 8 := by
  rw [longAt, toNat_append_mul, toNat_wordAt, toNat_wordAt, memRead_eight]

theorem ofNat_memRead_two (s : State) (a : Nat) : BitVec.ofNat 16 (memRead s a 2) = halfAt s a := by
  rw [← toNat_halfAt, BitVec.ofNat_toNat, BitVec.setWidth_eq]

theorem ofNat_memRead_four (s : State) (a : Nat) : BitVec.ofNat 32 (memRead s a 4) = wordAt s a := by
  rw [← toNat_wordAt, BitVec.ofNat_toNat, BitVec.setWidth_eq]

theorem ofNat_memRead_eight (s : State) (a : Nat) : BitVec.ofNat 64 (memRead s a 8) = longAt s a := by
  rw [← toNat_longAt, BitVec.ofNat_toNat, BitVec.setWidth_eq]

/-- The field at an offset depends on its own bytes only. -/
theorem halfAt_congr (s t : State) (a b : Nat) (h : ∀ k, k < 2 → s.inByte (a + k) = t.inByte (b + k)) :
    halfAt s a = halfAt t b := by
  have h0 := h 0 (by omega)
  have h1 := h 1 (by omega)
  simp only [Nat.add_zero] at h0
  simp only [halfAt, h0, h1]

theorem wordAt_congr (s t : State) (a b : Nat) (h : ∀ k, k < 4 → s.inByte (a + k) = t.inByte (b + k)) :
    wordAt s a = wordAt t b := by
  have h0 := h 0 (by omega)
  have h1 := h 1 (by omega)
  have h2 := h 2 (by omega)
  have h3 := h 3 (by omega)
  simp only [Nat.add_zero] at h0
  simp only [wordAt, h0, h1, h2, h3]

theorem longAt_congr (s t : State) (a b : Nat) (h : ∀ k, k < 8 → s.inByte (a + k) = t.inByte (b + k)) :
    longAt s a = longAt t b := by
  rw [longAt, longAt, wordAt_congr s t a b fun k hk => h k (by omega), wordAt_congr s t (a + 4) (b + 4) fun k hk => ?_]
  rw [Nat.add_assoc, Nat.add_assoc]
  exact h (4 + k) (by omega)

theorem hdrType_toNat (w : BitVec 32) : (hdrType w).toNat = w.toNat / 2 ^ 28 := by
  have := w.isLt
  simp [hdrType, BitVec.extractLsb'_toNat, Nat.shiftRight_eq_div_pow]
  omega

/-! ## Writes -/

theorem ofNat_div_eq_extract {w : Nat} (v : BitVec w) (k : Nat) :
    BitVec.ofNat 8 (v.toNat / 2 ^ k) = v.extractLsb' k 8 := by
  apply BitVec.eq_of_toNat_eq
  simp [BitVec.extractLsb'_toNat, Nat.shiftRight_eq_div_pow]

theorem beBytes_two (v : BitVec 16) : beBytes 2 v.toNat = wire16 v := by
  have h := fun k => ofNat_div_eq_extract v k
  simp only [beBytes, wire16, show (256 : Nat) = 2 ^ 8 from rfl, ← Nat.pow_mul, h]

theorem beBytes_four (v : BitVec 32) : beBytes 4 v.toNat = wire32 v := by
  have h := fun k => ofNat_div_eq_extract v k
  simp only [beBytes, wire32, show (256 : Nat) = 2 ^ 8 from rfl, ← Nat.pow_mul, h]

theorem beBytes_eight (v : BitVec 64) : beBytes 8 v.toNat = wire64 v := by
  have h := fun k => ofNat_div_eq_extract v k
  simp only [beBytes, wire64, wire32, show (256 : Nat) = 2 ^ 8 from rfl, ← Nat.pow_mul, h]
  simp only [List.cons_append, List.nil_append, List.cons.injEq, and_true]
  refine ⟨?_, ?_, ?_, ?_, ?_, ?_, ?_, ?_⟩ <;>
  · apply BitVec.eq_of_getLsbD_eq
    intro i hi
    interval_cases i <;> simp

theorem headerBytes_eq (p : Packet) (size : BitVec 16) : headerBytes p size = wireHeader p size := by
  rw [headerBytes, beBytes_four]
  simp only [wire32, wireHeader, wire16, headerWord, encPacketType, encTsiKind, encTsfKind, List.cons_append, List.nil_append,
    List.cons.injEq, and_true]
  refine ⟨?_, ?_, ?_, ?_⟩ <;>
  · apply BitVec.eq_of_getLsbD_eq
    intro i hi
    simp only [BitVec.getLsbD_extractLsb', BitVec.getLsbD_append]
    interval_cases i <;> simp

theorem classIdBytes_eq (p : Packet) : classIdBytes p = wireClassId p := by
  rw [classIdBytes, wireClassId, beBytes_four, beBytes_two, beBytes_two]

@[simp] theorem wire16_length (v : BitVec 16) : (wire16 v).length = 2 := rfl
@[simp] theorem wire32_length (v : BitVec 32) : (wire32 v).length = 4 := rfl
@[simp] theorem wire64_length (v : BitVec 64) : (wire64 v).length = 8 := rfl
@[simp] theorem wireHeader_length (p : Packet) (size : BitVec 16) : (wireHeader p size).length = 4 := rfl
@[simp] theorem wireClassId_length (p : Packet) : (wireClassId p).length = 8 := rfl

/-- Equal bytes are equal fields. -/
theorem wire16_inj (x y : BitVec 16) (h : wire16 x = wire16 y) : x = y := by
  have e := congrArg beNat h
  rw [← beBytes_two, ← beBytes_two, beNat_beBytes, beNat_beBytes] at e
  apply BitVec.eq_of_toNat_eq
  have := x.isLt
  have := y.isLt
  omega

theorem wire32_inj (x y : BitVec 32) (h : wire32 x = wire32 y) : x = y := by
  have e := congrArg beNat h
  rw [← beBytes_four, ← beBytes_four, beNat_beBytes, beNat_beBytes] at e
  apply BitVec.eq_of_toNat_eq
  have := x.isLt
  have := y.isLt
  omega

theorem wire64_inj (x y : BitVec 64) (h : wire64 x = wire64 y) : x = y := by
  have e := congrArg beNat h
  rw [← beBytes_eight, ← beBytes_eight, beNat_beBytes, beNat_beBytes] at e
  apply BitVec.eq_of_toNat_eq
  have := x.isLt
  have := y.isLt
  omega

/-! ## Lengths -/

theorem widthIf_eq (b : Bool) (n : Nat) : widthIf b n = n * b.toNat := by cases b <;> simp [widthIf]

theorem offPayload_eq (p : Packet) : offPayload p = payloadOffset p := by
  simp only [offPayload, offTsf, offTsi, offClassId, payloadOffset, widthIf_eq]

theorem overhead_eq (p : Packet) : overhead p = shapeOverhead p := by
  simp only [overhead, shapeOverhead, offPayload_eq, widthIf_eq]

theorem shapeOverhead_bounds (p : Packet) : 4 ≤ shapeOverhead p ∧ shapeOverhead p ≤ 32 := by
  have := Bool.toNat_le (selS p)
  have := Bool.toNat_le (selC p)
  have := Bool.toNat_le (selI p)
  have := Bool.toNat_le (selF p)
  have := Bool.toNat_le (selT p)
  simp only [shapeOverhead, payloadOffset]
  omega

theorem wirePacket_length (s : State) (n : Nat) : (wirePacket s n).length = shapeOverhead s.pkt + s.pkt.payLen := by
  simp only [wirePacket, List.length_append, wireHeader_length, List.length_map, List.length_range, shapeOverhead, payloadOffset]
  cases selS s.pkt <;> cases selC s.pkt <;> cases selI s.pkt <;> cases selF s.pkt <;> cases selT s.pkt <;> simp <;> omega

/-! ## The STATUS register -/

@[simp] theorem statusOk_packStatus (ok : Bool) (k : BitVec 3) (f : BitVec 2) (c : BitVec 4) :
    statusOk (packStatus ok k f c) = ok := by cases ok <;> revert k f c <;> decide
@[simp] theorem statusDone_packStatus (ok : Bool) (k : BitVec 3) (f : BitVec 2) (c : BitVec 4) :
    statusDone (packStatus ok k f c) = true := by cases ok <;> revert k f c <;> decide
@[simp] theorem statusKind_packStatus (ok : Bool) (k : BitVec 3) (f : BitVec 2) (c : BitVec 4) :
    statusKind (packStatus ok k f c) = k := by cases ok <;> revert k f c <;> decide
@[simp] theorem statusField_packStatus (ok : Bool) (k : BitVec 3) (f : BitVec 2) (c : BitVec 4) :
    statusField (packStatus ok k f c) = f := by cases ok <;> revert k f c <;> decide
@[simp] theorem statusLastOp_packStatus (ok : Bool) (k : BitVec 3) (f : BitVec 2) (c : BitVec 4) :
    statusLastOp (packStatus ok k f c) = c := by cases ok <;> revert k f c <;> decide
@[simp] theorem statusReserved_packStatus (ok : Bool) (k : BitVec 3) (f : BitVec 2) (c : BitVec 4) :
    packStatus ok k f c &&& statusReservedMask = 0#32 := by cases ok <;> revert k f c <;> decide

end Sys2Proof.Machine
end

