-- ==== Sys2Proof/Machine/Script.lean ====
section
/-! DEFINITION. The host's script notation (30_encoding.md R118, R119): pseudo-operations as lists of transactions. -/

namespace Sys2Proof.Machine

/-- `WB` of consecutive bytes from an address upward. -/
def writeRun (buffer : BufId) (a : Nat) : List Byte → List Txn
  | [] => []
  | b :: bs => .writeByte buffer a b :: writeRun buffer (a + 1) bs

/-- `LOAD_IBUF b0 ... b(n−1)`: the bytes from address 0, then IN_LEN = n. -/
def scriptLoadIbuf (bs : List Byte) : List Txn := writeRun .ibuf 0 bs ++ [.writeReg 0x05 bs.length]

/-- `FILL_OBUF n, b`. -/
def scriptFillObuf (n : Nat) (b : Byte) : List Txn := writeRun .obuf 0 (List.replicate n b)

/-- `DUMP_OBUF n`. -/
def scriptDumpObuf (n : Nat) : List Txn := (List.range n).map (fun a => .readByte .obuf a)

/-- `SHIFT_IBUF k` in a state whose IN_LEN is L: IBUF[k .. L) moved down to address 0, then IN_LEN = L − k. R119 gives L − k no value for k
above L: the model then writes no byte and IN_LEN = 0 (log 17, DESIGN CHOICE). -/
def scriptShiftIbuf (s : State) (k : Nat) : List Txn :=
  writeRun .ibuf 0 (inBytes s k (s.inLen - k)) ++ [.writeReg 0x05 (s.inLen - k)]

/-- `CMD <mnemonic>`: a write of register 0x00. -/
def scriptCmd (code : Nat) : Txn := .writeReg 0x00 code

end Sys2Proof.Machine
end

