-- ==== Sys2Proof/Tests/Slice0.lean ====
section
/-! SUPPORT. The model's own tests: the check of WellFormed on ill-formed terms, every constructor's decoding from a word written out from
30_encoding.md, at most two one-step tests per instruction with the spec's own numbers (the rule or vector is named at each), and for
every statement with hypotheses a concrete state that meets them. -/

open Sys2Proof Sys2Proof.Machine

namespace Sys2Proof.Tests

/-! ## Helpers -/

/-- The next state of an outcome. -/
def nextOf : Host.Outcome State Fault Refusal → Option State
  | .next t => some t
  | _ => none

/-- One value of the next state. -/
def after {α : Type} (o : Host.Outcome State Fault Refusal) (f : State → α) : Option α := (nextOf o).map f

/-- A buffer that holds the bytes from address 0 and nothing else. -/
def holding (bs : List Byte) : Memory := { epoch := 0, cells := (List.range bs.length).zip bs }

/-- The reset state with the bytes in IBUF and IN_LEN covering them. -/
def loaded (bs : List Byte) : State := { State.reset with ibuf := holding bs, inLen := bs.length }

/-- A DEC_PKT in progress with its cursor at 0. -/
def inCommand (bs : List Byte) : State := start 7#4 (loaded bs)

/-- The first n bytes of OBUF. -/
def dump (n : Nat) (s : State) : List Byte := (List.range n).map s.outByte

/-- The state with these transactions still to come. -/
def hosted (ts : List Txn) (s : State) : State := { s with host := ts }

/-- Scenario B of 95_test_vectors.md 1.2. -/
def bytesB : List Byte :=
  [0x1C#8, 0x05#8, 0x00#8, 0x07#8, 0x12#8, 0x34#8, 0x56#8, 0x78#8, 0x00#8, 0x12#8, 0xA2#8, 0x00#8, 0x00#8, 0x01#8, 0x00#8, 0x02#8, 0xDE#8, 0xAD#8, 0xBE#8, 0xEF#8, 0x01#8, 0x02#8, 0x03#8, 0x04#8, 0x40#8, 0x04#8, 0x00#8, 0x83#8]

/-- Scenario A of 95_test_vectors.md 1.1, with four payload bytes. -/
def bytesA : List Byte := [0x01#8, 0x00#8, 0x00#8, 0x02#8, 0xAA#8, 0xBB#8, 0xCC#8, 0xDD#8]

/-- The packet value of scenario B. -/
def packetB : Packet :=
  { Packet.zero with
    pktType := 1, cidPresent := 1, trlPresent := 1, pktCount := 5, pktSize := 7, streamId := 0x12345678, classOui := 0x0012A200,
    classIcc := 1, classPcc := 2, trailer := 0x40040083, payOff := 16, payLen := 8 }

/-- Scenario B's registers over its bytes, with room for the packet. -/
def assembling : State := { loaded bytesB with pkt := packetB, outCap := 28 }

/-! ## WellFormed refuses the ill-formed terms -/

theorem test_wellFormed_illegal67_legal_code : (Instr.hdrIllegal67 5#4).wellFormed = false := by decide
theorem test_wellFormed_illegal67_other_row : (Instr.hdrIllegal67 8#4).wellFormed = false := by decide
theorem test_wellFormed_illegal815_below : (Instr.hdrIllegal815 7#4).wellFormed = false := by decide
theorem test_wellFormed_bounds :
    [Instr.hdrIllegal67 6#4, .hdrIllegal67 7#4, .hdrIllegal815 8#4, .hdrIllegal815 15#4].map Instr.wellFormed =
      [true, true, true, true] := by decide

/-! ## Decoding: every constructor from a word written out -/

/-- 30 R115: the sixteen codes, the bits above bit 3 ignored. -/
theorem test_decode_commands :
    (List.range 16).map (fun c => decode .command [BitVec.ofNat 8 c]) =
      ([.nop, .decHdr, .encHdr, .decCid, .encCid, .decTrl, .encTrl, .decPkt, .encPkt, .reserved9, .reservedA, .reservedB, .reservedC, .reservedD, .reservedE, .reservedF] : List Instr).map (fun i => .ok (i, [])) := by decide
theorem test_decode_command_high_bits : decode .command [0xA7#8] = .ok (.decPkt, []) := by decide

/-- 0000 0 1 01 01 10 0011 0000000100000010 (30 R101). -/
theorem test_decode_hdrData : decode .header [0x05#8, 0x63#8, 0x01#8, 0x02#8] = .ok (.hdrData 0#1 1#1 1#2 2#2 3#4 0x102#16, []) := by decide
/-- 0001 1 1 00 00 00 0101 0000000000000111 (30 R101). -/
theorem test_decode_hdrDataSid : decode .header [0x1C#8, 0x05#8, 0x00#8, 0x07#8] = .ok (.hdrDataSid 1#1 1#1 0#2 0#2 5#4 7#16, []) := by decide
/-- 0010 1 0 10 11 01 1000 1000000000000001 (30 R101). -/
theorem test_decode_hdrExtData : decode .header [0x2A#8, 0xD8#8, 0x80#8, 0x01#8] = .ok (.hdrExtData 1#1 0#1 3#2 1#2 8#4 0x8001#16, []) := by decide
/-- 0011 0 0 11 10 11 1111 1111111100000000 (30 R101). -/
theorem test_decode_hdrExtDataSid : decode .header [0x33#8, 0xBF#8, 0xFF#8, 0x00#8] = .ok (.hdrExtDataSid 0#1 0#1 2#2 3#2 15#4 0xFF00#16, []) := by decide
/-- 0100 0 1 00 00 11 0001 0000000011111111 (30 R101). -/
theorem test_decode_hdrContext : decode .header [0x44#8, 0x31#8, 0x00#8, 0xFF#8] = .ok (.hdrContext 0#1 1#1 0#2 3#2 1#4 0x00FF#16, []) := by decide
/-- 0101 1 1 00 11 10 1101 1111111111111111 (30 R101). -/
theorem test_decode_hdrExtContext : decode .header [0x5C#8, 0xED#8, 0xFF#8, 0xFF#8] = .ok (.hdrExtContext 1#1 1#1 3#2 2#2 13#4 0xFFFF#16, []) := by decide
/-- 0110 1 1 11 11 11 1111 1111111111111111 (30 R101). -/
theorem test_decode_hdrIllegal67_6 : decode .header [0x6F#8, 0xFF#8, 0xFF#8, 0xFF#8] = .ok (.hdrIllegal67 6#4, []) := by decide
/-- 0111 0 0 00 00 00 0000 0000000000000000 (30 R101). -/
theorem test_decode_hdrIllegal67_7 : decode .header [0x70#8, 0x00#8, 0x00#8, 0x00#8] = .ok (.hdrIllegal67 7#4, []) := by decide
/-- 1000 0 0 00 00 00 0000 0000000000000000 (30 R101). -/
theorem test_decode_hdrIllegal815_8 : decode .header [0x80#8, 0x00#8, 0x00#8, 0x00#8] = .ok (.hdrIllegal815 8#4, []) := by decide
/-- 1111 1 1 11 11 11 1111 1111111111111111 (30 R101). -/
theorem test_decode_hdrIllegal815_15 : decode .header [0xFF#8, 0xFF#8, 0xFF#8, 0xFF#8] = .ok (.hdrIllegal815 15#4, []) := by decide
/-- 30 R105, R107, R108: one big-endian number. -/
theorem test_decode_streamId : decode .streamId [0x12#8, 0x34#8, 0x56#8, 0x78#8] = .ok (.streamId 0x12345678#32, []) := by decide
theorem test_decode_tsiValue : decode .tsiValue [0x80#8, 0x00#8, 0x00#8, 0x01#8, 0xEE#8] = .ok (.tsiValue 0x80000001#32, [0xEE#8]) := by
  decide
theorem test_decode_tsfValue :
    decode .tsfValue [0x01#8, 0x02#8, 0x03#8, 0x04#8, 0x05#8, 0x06#8, 0x07#8, 0x08#8] = .ok (.tsfValue 0x0102030405060708#64, []) := by
  decide
/-- 30 R106: oui, information class, packet class. -/
theorem test_decode_classId :
    decode .classId [0x00#8, 0x12#8, 0xA2#8, 0x00#8, 0x00#8, 0x01#8, 0x00#8, 0x02#8] = .ok (.classId 0x0012A200#32 1#16 2#16, []) := by
  decide
/-- 30 R110: valid_data_en (bit 30), valid_data_ind (bit 18), the count enable (bit 7) and count 3 of `40 04 00 83`. -/
theorem test_decode_trailer :
    decode .trailer [0x40#8, 0x04#8, 0x00#8, 0x83#8] =
      .ok (.trailer { trailerFields 0#32 with validDataEn := true, validDataInd := true, contextCountEn := true, contextCount := 3#7 }, []) := by
  decide
theorem test_decode_too_few : decode .classId [0x00#8, 0x12#8] = .error (.tooFewBytes 6) := by decide
/-- A table word of each width the table has (30 R120). -/
theorem test_decodeTableWord :
    (decodeTableWord 4 0x7, decodeTableWord 8 0x7, decodeTableWord 32 0x1C050007, decodeTableWord 64 0x0012A20000010002, decodeTableWord 16 0) =
      (some .decPkt, some .decPkt, some (.hdrDataSid 1#1 1#1 0#2 0#2 5#4 7#16), some (.classId 0x0012A200#32 1#16 2#16), none) := by
  decide

/-! ## One step of each instruction

The expected values are the worked examples of the rule named, or of 95_test_vectors.md. -/

/-- 46 R231: after a failed DEC_PKT, `CMD NOP` leaves ERR_KIND = 2. -/
theorem test_nop_keeps_the_status :
    after (exec .nop { State.reset with status := 0x1C21 }) (fun t => statusKind t.status) = some 2#3 := by decide

/-- 42 R162: `01 00 00 02`; the reserved bit is dropped. -/
theorem test_decHdr_scenario_A :
    after (exec .decHdr (loaded bytesA)) (fun t => (t.pkt.pktType, t.pkt.pktSize, t.status, t.xferLen, t.remLen)) =
      some (0, 2, 0x403, 4, 4) := by decide
/-- Scenario C: three bytes need one more. -/
theorem test_decHdr_scenario_C :
    after (exec .decHdr (loaded [0x01#8, 0x00#8, 0x00#8])) (fun t => (t.status, t.errInfo)) = some (0x421, 1) := by decide

/-- 42 R161: `5C ED FF FF`. -/
theorem test_encHdr_example :
    after (exec .encHdr { State.reset with outCap := 4, pkt := { Packet.zero with
        pktType := 5, cidPresent := 1, trlPresent := 1, tsiKind := 3, tsfKind := 2, pktCount := 13, pktSize := 65535 } })
      (dump 4) = some [0x5C#8, 0xED#8, 0xFF#8, 0xFF#8] := by decide
/-- One byte short: nothing is written (60 R243). -/
theorem test_encHdr_short :
    after (exec .encHdr { State.reset with outCap := 3, obuf := holding [0xEE#8] }) (fun t => (t.status, t.outByte 0)) =
      some (0x831, 0xEE) := by decide

/-- 41 R152. -/
theorem test_decCid_example :
    after (exec .decCid (loaded [0x00#8, 0x12#8, 0xA2#8, 0x00#8, 0x00#8, 0x01#8, 0x00#8, 0x02#8]))
      (fun t => (t.pkt.classOui, t.pkt.classIcc, t.pkt.classPcc, t.xferLen, t.remLen)) = some (0x0012A200, 1, 2, 8, 0) := by decide
theorem test_decCid_short :
    after (exec .decCid { loaded bytesA with inLen := 7 }) (fun t => (t.status, t.errInfo)) = some (0xC21, 1) := by decide

/-- 41 R153. -/
theorem test_encCid_example :
    after (exec .encCid { assembling with outCap := 8 }) (dump 8) =
      some [0x00#8, 0x12#8, 0xA2#8, 0x00#8, 0x00#8, 0x01#8, 0x00#8, 0x02#8] := by decide
theorem test_encCid_short : after (exec .encCid { assembling with outCap := 7 }) (fun t => (t.status, t.obuf)) =
    some (0x1031, State.reset.obuf) := by decide

/-- 43 R172. -/
theorem test_decTrl_example :
    after (exec .decTrl (loaded [0x80#8, 0x08#8, 0x00#8, 0x01#8])) (fun t => (t.pkt.trailer, t.status)) =
      some (0x80080001, 0x1403) := by decide
theorem test_decTrl_empty : after (exec .decTrl State.reset) (fun t => (t.status, t.errInfo)) = some (0x1421, 4) := by decide

/-- 43 R173. -/
theorem test_encTrl_example :
    after (exec .encTrl { assembling with outCap := 4 }) (dump 4) = some [0x40#8, 0x04#8, 0x00#8, 0x83#8] := by decide
theorem test_encTrl_short : after (exec .encTrl { assembling with outCap := 3 }) (fun t => t.status) = some 0x1831 := by decide

/-- 95 1.2: DEC_PKT of scenario B. -/
theorem test_decPkt_scenario_B :
    after (exec .decPkt (loaded bytesB)) (fun t => (t.pkt, t.status, t.xferLen, t.remLen, (present t.pkt).toNat)) =
      some (packetB, 0x1C03, 28, 0, 0x13) := by decide
/-- 44 R184: packet_size 1 with a trailer flagged is smaller than its overhead. -/
theorem test_decPkt_inconsistent_size :
    after (exec .decPkt (loaded [0x04#8, 0x00#8, 0x00#8, 0x01#8])) (fun t => (t.status, t.errInfo)) = some (0x1C41, 0) := by decide

/-- 45 R218: scenario B emitted from the registers, byte for byte, PKT_SIZE not read. -/
theorem test_encPkt_scenario_B :
    after (exec .encPkt { assembling with pkt := { packetB with pktSize := 0 } }) (fun t => (dump 28 t, t.status, t.pkt.pktSize)) =
      some (bytesB, 0x2003, 0) := by decide
/-- 45 R222: test 3 comes before test 4. -/
theorem test_encPkt_view_before_room :
    after (exec .encPkt { assembling with inLen := 23, outCap := 0 }) (fun t => (t.status, t.errInfo)) = some (0x2021, 1) := by decide

/-- 46 R232: the status and information of the reserved codes; `0xC` gives 0x3071 and 12 in the rule. -/
theorem test_reserved_codes :
    ([.reserved9, .reservedA, .reservedB, .reservedC, .reservedD, .reservedE, .reservedF] : List Instr).map
        (fun i => after (exec i State.reset) (fun t => (t.status, t.errInfo))) =
      [some (0x2471, 9), some (0x2871, 10), some (0x2C71, 11), some (0x3071, 12), some (0x3471, 13), some (0x3871, 14),
       some (0x3C71, 15)] := by decide

/-- 40 R140, 30 R102: the six legal types through the next step after reset, and the illegal codes 6, 7, 8 and 15. -/
theorem test_header_rows_by_fetch :
    [0x00000002, 0x10000002, 0x20000002, 0x30000002, 0x40000002, 0x50000002].map
        (fun w => after (step (State.reset.withFetchWord 32 w)) (fun t => (t.pkt.pktType, t.status))) =
      [some (0, 0x403), some (1, 0x403), some (2, 0x403), some (3, 0x403), some (4, 0x403), some (5, 0x403)] := by decide
theorem test_illegal_rows_by_fetch :
    [0x60000000, 0x70000000, 0x80000000, 0xFFFFFFFF].map
        (fun w => after (step (State.reset.withFetchWord 32 w)) (fun t => (t.status, t.errInfo))) =
      [some (0x511, 6), some (0x511, 7), some (0x511, 8), some (0x511, 15)] := by decide
theorem test_command_by_fetch :
    after (step (State.reset.withFetchWord 4 0xC)) (fun t => (t.status, t.host)) = some (0x3071, []) := by decide

/-- 42 R160: a header row meets the command in progress. -/
theorem test_hdrExtDataSid_in_command :
    after (exec (.hdrExtDataSid 1#1 0#1 2#2 3#2 9#4 12#16) (inCommand bytesA)) (fun t => t.seq.map (fun q => (q.cur, q.pkt))) =
      some (some (4, { Packet.zero with
        pktType := 3, cidPresent := 1, tsiKind := 2, tsfKind := 3, pktCount := 9, pktSize := 12 })) := by decide
/-- A command between two fields: its cursor at 4, 24 bytes still to account for. -/
def inField : State := setSeq { op := 7#4, cur := 4, rem := 24, pkt := Packet.zero } (loaded bytesB)

/-- The cursor and the running length of the command in progress. -/
def seqCursor (t : State) : Option (Nat × Nat) := t.seq.map (fun q => (q.cur, q.rem))

/-- The values the command in progress has decoded. -/
def seqPacket (t : State) : Option Packet := t.seq.map (fun q => q.pkt)

/-- 44 R185 to R190: each field word moves the cursor by its width; the optional ones take it from the running length. -/
theorem test_field_rows_move_the_cursor :
    [after (exec (.streamId 1#32) inField) seqCursor, after (exec (.classId 1#32 2#16 3#16) inField) seqCursor,
      after (exec (.tsiValue 1#32) inField) seqCursor, after (exec (.tsfValue 1#64) inField) seqCursor,
      after (exec (.trailer (trailerFields 1#32)) inField) seqCursor] =
    [some (some (8, 20)), some (some (12, 16)), some (some (8, 20)), some (some (12, 16)), some (some (8, 24))] := by decide

/-- The same five words give their own field its value and no other. -/
theorem test_field_rows_give_their_value :
    [after (exec (.streamId 1#32) inField) seqPacket, after (exec (.classId 1#32 2#16 3#16) inField) seqPacket,
      after (exec (.tsiValue 3#32) inField) seqPacket, after (exec (.tsfValue 4#64) inField) seqPacket,
      after (exec (.trailer (trailerFields 5#32)) inField) seqPacket] =
    [some (some { Packet.zero with streamId := 1 }), some (some { Packet.zero with classOui := 1, classIcc := 2, classPcc := 3 }),
      some (some { Packet.zero with tsiVal := 3 }), some (some { Packet.zero with tsfVal := 4 }),
      some (some { Packet.zero with trailer := 5 })] := by decide

/-! ## The host port -/

/-- 10 R23: 0x16 has low bits 6 and is dropped, 0x15 is stored as 5. -/
theorem test_pktType_write :
    (after (step (hosted [.writeReg 0x10 0x16] assembling)) (fun t => t.pkt.pktType),
      after (step (hosted [.writeReg 0x10 0x15] assembling)) (fun t => t.pkt.pktType)) = (some 1, some 5) := by decide
/-- 95_test_vectors.md 2.9, "decode A, then reset": STATUS 0, the registers 0 and IBUF[0 .. 8) still scenario A. -/
theorem test_reset_keeps_ibuf :
    after (step (hosted [.reset] (decPkt (loaded bytesA)))) (fun t => (t.pkt, t.status, inBytes t 0 8)) =
      some (Packet.zero, 0, bytesA) := by decide
/-- 70 R270, R272: a reset that cuts a command clears the registers and keeps IBUF; no byte of OBUF is known after it. -/
theorem test_resetCut_clears :
    after (step (hosted [.resetDuring 0x8] { assembling with obuf := holding [0xEE#8] }))
        (fun t => (t.pkt, t.outCap, inBytes t 0 28, t.obuf.cells.length)) =
      some (Packet.zero, 0, bytesB, 0) := by decide
/-- 30 R119: LOAD_IBUF is one byte write per byte and a write of IN_LEN. -/
theorem test_script_load : (scriptLoadIbuf bytesA).length = 9 ∧ (scriptLoadIbuf bytesA)[8]? = some (.writeReg 0x05 8) := by decide

/-! ## Witnesses: a concrete state for the hypotheses of each statement, at the boundaries of its clauses -/

theorem witness_CmdWriteRunsTheCommandOfItsCode :
    (hosted [.writeReg 0x00 0x1F, .reset] assembling).host = .writeReg 0x00 0x1F :: [.reset] := rfl

theorem witness_StepRunsTheDecodedInstruction :
    (hosted [.writeReg 0x00 0x28] assembling).host = .writeReg 0x00 0x28 :: [] ∧
    decode .command [BitVec.ofNat 8 0x28] = .ok (.encPkt, []) ∧ Instr.encPkt.wellFormed = true := by decide

theorem witness_IdleStepHoldsTheState : State.reset.host = [] := rfl

theorem witness_EnumDecodersTotalOnTheirRange :
    (5#4).toNat < 6 ∧ decPacketType 5 = .ok 5#4 ∧ decTsiKind 3 = .ok 3#2 ∧ decTsfKind 3 = .ok 3#2 := by decide

theorem witness_EncHdrWritesTheHeaderBytes :
    { assembling with outCap := 3 }.outCap < 4 ∧ 4 ≤ { assembling with outCap := 4 }.outCap := by decide

theorem witness_EncCidWritesTheClassIdentifier :
    { assembling with outCap := 7 }.outCap < 8 ∧ 8 ≤ { assembling with outCap := 8 }.outCap := by decide

theorem witness_EncTrlWritesTheTrailerWord :
    { assembling with outCap := 3 }.outCap < 4 ∧ 4 ≤ { assembling with outCap := 4 }.outCap := by decide

/-- Scenario A has no optional field, scenario B three of them. -/
theorem witness_ParsedPacketPresenceAlgebra :
    exec .decPkt (loaded bytesA) = .next (decPkt (loaded bytesA)) ∧ statusOk (decPkt (loaded bytesA)).status = true ∧
    selS (decPkt (loaded bytesA)).pkt = false ∧ selC (decPkt (loaded bytesA)).pkt = false ∧
    selI (decPkt (loaded bytesA)).pkt = false ∧ selF (decPkt (loaded bytesA)).pkt = false ∧
    selT (decPkt (loaded bytesA)).pkt = false := ⟨rfl, by decide⟩

theorem witness_DecPktIgnoresEarlierRegisters :
    (exec .decPkt (loaded bytesB) = .next (decPkt (loaded bytesB)) ∧ statusOk (decPkt (loaded bytesB)).status = true) ∧
    (exec .decPkt State.reset = .next (decPkt State.reset) ∧ statusOk (decPkt State.reset).status = false) :=
  ⟨⟨rfl, by decide⟩, rfl, by decide⟩

/-- Scenario B and an IBUF that differs in the eight payload bytes. -/
theorem witness_DecPktReadsNoPayloadByte :
    exec .decPkt (loaded bytesB) = .next (decPkt (loaded bytesB)) ∧ statusOk (decPkt (loaded bytesB)).status = true ∧
    ∀ a, a < (decPkt (loaded bytesB)).pkt.payOff ∨ (decPkt (loaded bytesB)).pkt.payOff + (decPkt (loaded bytesB)).pkt.payLen ≤ a →
      ((loaded bytesB).ibuf.writeBytes 16 (List.replicate 8 0#8)).byte .ibuf a = (loaded bytesB).inByte a := by
  have h : (decPkt (loaded bytesB)).pkt.payOff = 16 ∧ (decPkt (loaded bytesB)).pkt.payLen = 8 := by decide
  refine ⟨rfl, by decide, fun a ha => ?_⟩
  rw [byte_writeBytes]
  rw [h.1, h.2] at ha
  rcases ha with ha | ha
  · rw [if_neg (by omega)]
    rfl
  · rw [if_pos (by omega), List.getD_eq_default _ _ (by simp; omega)]
    rfl

/-- The five clauses, each at its boundary: a length of 5, 65536 words, a view one byte short, room one byte short, room enough. -/
theorem witness_EncPktEmitsThePacket :
    { assembling with pkt := { packetB with payLen := 5 } }.pkt.payLen % 4 ≠ 0 ∧
    (262140 % 4 = 0 ∧ 65535 < (shapeOverhead { Packet.zero with payLen := 262140 } + 262140) / 4) ∧
    (packetB.payLen % 4 = 0 ∧ (shapeOverhead packetB + packetB.payLen) / 4 ≤ 65535 ∧
      { assembling with inLen := 23 }.inLen < packetB.payOff + packetB.payLen) ∧
    (packetB.payOff + packetB.payLen ≤ assembling.inLen ∧
      { assembling with outCap := 27 }.outCap < shapeOverhead packetB + packetB.payLen) ∧
    shapeOverhead packetB + packetB.payLen ≤ assembling.outCap := by decide

/-- Scenario A's shape (no optional field) with every absent register and PKT_SIZE different. -/
theorem witness_EncPktIgnoresSizeAndAbsentFields :
    let s : State := { loaded bytesA with pkt := { Packet.zero with payOff := 4, payLen := 4 }, outCap := 8 }
    let p : Packet := { packetB with pktType := 0, cidPresent := 0, trlPresent := 0, pktCount := 0, payOff := 4, payLen := 4 }
    (p.pktType = s.pkt.pktType ∧ p.cidPresent = s.pkt.cidPresent ∧ p.trlPresent = s.pkt.trlPresent ∧ p.tsiKind = s.pkt.tsiKind ∧
      p.tsfKind = s.pkt.tsfKind ∧ p.pktCount = s.pkt.pktCount ∧ p.payOff = s.pkt.payOff ∧ p.payLen = s.pkt.payLen) ∧
    (selS s.pkt = false ∧ selC s.pkt = false ∧ selI s.pkt = false ∧ selF s.pkt = false ∧ selT s.pkt = false) ∧
    exec .encPkt s = .next (encPkt s) := ⟨by decide, by decide, rfl⟩

theorem witness_EncPktInvertsDecPkt :
    exec .decPkt (loaded bytesB) = .next (decPkt (loaded bytesB)) ∧ statusOk (decPkt (loaded bytesB)).status = true ∧
    (decPkt (loaded bytesB)).xferLen ≤ 28 := ⟨rfl, by decide⟩

theorem witness_DecPktInvertsEncPkt :
    assembling.pkt.pktType.toNat ≤ 5 ∧ exec .encPkt assembling = .next (encPkt assembling) ∧
    statusOk (encPkt assembling).status = true ∧ (loaded bytesB).inLen = (encPkt assembling).xferLen ∧
    ∀ a, a < (encPkt assembling).xferLen → (loaded bytesB).inByte a = (encPkt assembling).outByte a := by
  have h : (encPkt assembling).xferLen = 28 := by decide
  have e : dump 28 (encPkt assembling) = (List.range 28).map (loaded bytesB).inByte := by decide
  refine ⟨by decide, rfl, by decide, by decide, fun a ha => ?_⟩
  rw [h] at ha
  exact (List.map_inj_left.mp e a (List.mem_range.mpr ha)).symm

theorem witness_LegalHeaderRowsGiveTheirFields :
    (inCommand bytesB).seq = some { op := 7#4, cur := 0, rem := 0, pkt := Packet.zero } := rfl

/-- The bounds of the two illegal groups. -/
theorem witness_IllegalHeaderRowsFailTheCommand :
    (inCommand bytesB).seq = some { op := 7#4, cur := 0, rem := 0, pkt := Packet.zero } ∧
    (6#4 = 6#4 ∨ 6#4 = 7#4) ∧ (7#4 = 6#4 ∨ 7#4 = 7#4) ∧ 8 ≤ (8#4).toNat ∧ 8 ≤ (15#4).toNat := by decide

theorem witness_FieldRowsGiveTheirValue : inField.seq = some { op := 7#4, cur := 4, rem := 24, pkt := Packet.zero } := rfl

theorem witness_WireRowsOutsideACommandChangeNothing :
    (Instr.streamId 1#32).position ≠ .command ∧ State.reset.seq = none := by decide

/-- One state for the six clauses; the 8-byte fields end exactly at IN_LEN. -/
theorem witness_ReadersRunTheDecodedRow :
    (inCommand bytesA).seq = some { op := 7#4, cur := 0, rem := 0, pkt := Packet.zero } ∧
    0 + 4 ≤ (inCommand bytesA).inLen ∧ (inCommand bytesA).inLen = 0 + 8 ∧
    decode .header (inBytes (inCommand bytesA) 0 4) = .ok (.hdrData 0#1 0#1 0#2 0#2 0#4 2#16, []) ∧
    decode .streamId (inBytes (inCommand bytesA) 0 4) = .ok (.streamId 0x01000002#32, []) ∧
    decode .classId (inBytes (inCommand bytesA) 0 8) = .ok (.classId 0x01000002#32 0xAABB#16 0xCCDD#16, []) ∧
    decode .tsiValue (inBytes (inCommand bytesA) 0 4) = .ok (.tsiValue 0x01000002#32, []) ∧
    decode .tsfValue (inBytes (inCommand bytesA) 0 8) = .ok (.tsfValue 0x01000002AABBCCDD#64, []) ∧
    decode .trailer (inBytes (inCommand bytesA) 0 4) = .ok (.trailer (trailerFields 0x01000002#32), []) := by decide

theorem witness_FailureChangesOnlyTheStatusGroup :
    Instr.decPkt.position = .command ∧ Instr.decPkt ≠ .nop ∧ exec .decPkt State.reset = .next (decPkt State.reset) ∧
    statusOk (decPkt State.reset).status = false := ⟨by decide, by decide, rfl, by decide⟩

theorem witness_SuccessReportsItsTransfer :
    (isDecode .decPkt = true ∧ exec .decPkt (loaded bytesB) = .next (decPkt (loaded bytesB)) ∧
      statusOk (decPkt (loaded bytesB)).status = true) ∧
    (isEncode .encPkt = true ∧ exec .encPkt assembling = .next (encPkt assembling) ∧
      statusOk (encPkt assembling).status = true) := ⟨⟨rfl, rfl, by decide⟩, rfl, rfl, by decide⟩

/-- Every cell of the table of 60 R260 that says yes, reached. -/
theorem witness_EachCommandRaisesOnlyItsKinds :
    [after (exec .decHdr (loaded [0x60#8, 0x00#8, 0x00#8, 0x00#8])) (fun t => statusKind t.status),
      after (exec .decHdr State.reset) (fun t => statusKind t.status),
      after (exec .decCid State.reset) (fun t => statusKind t.status),
      after (exec .decTrl State.reset) (fun t => statusKind t.status),
      after (exec .encHdr State.reset) (fun t => statusKind t.status),
      after (exec .encCid State.reset) (fun t => statusKind t.status),
      after (exec .encTrl State.reset) (fun t => statusKind t.status),
      after (exec .decPkt (loaded [0x60#8, 0x00#8, 0x00#8, 0x00#8])) (fun t => statusKind t.status),
      after (exec .decPkt State.reset) (fun t => statusKind t.status),
      after (exec .decPkt (loaded [0x00#8, 0x00#8, 0x00#8, 0x00#8])) (fun t => statusKind t.status),
      after (exec .encPkt { assembling with inLen := 23 }) (fun t => statusKind t.status),
      after (exec .encPkt { assembling with outCap := 27 }) (fun t => statusKind t.status),
      after (exec .encPkt { assembling with pkt := { packetB with payLen := 6 } }) (fun t => statusKind t.status),
      after (exec .reserved9 State.reset) (fun t => statusKind t.status)] =
    [some 1, some 2, some 2, some 2, some 3, some 3, some 3, some 1, some 2, some 4, some 2, some 3, some 4, some 7] := by decide

/-- The hypotheses of InsufficientInputCheckPassesOnRetry. -/
def retries (i : Instr) (s t : State) (n : Nat) (m : Memory) : Prop :=
  (isDecode i = true ∨ i = .encPkt) ∧ exec i s = .next t ∧ statusOk t.status = false ∧ statusKind t.status = 2#3 ∧
    s.inLen + t.errInfo ≤ n ∧ ∀ a, a < s.inLen → m.byte .ibuf a = s.inByte a

/-- Each raise site of R242, with exactly ERR_INFO more bytes: the single-field decodes, DEC_PKT at step 1 and at step 2, ENC_PKT. -/
theorem witness_InsufficientInputCheckPassesOnRetry :
    let s := loaded (bytesA.take 3)
    let d := loaded (bytesA.take 4)
    let e := { assembling with inLen := 23 }
    retries .decHdr s (decHdr s) 4 (holding bytesA) ∧ retries .decCid s (decCid s) 8 (holding bytesA) ∧
    retries .decTrl s (decTrl s) 4 (holding bytesA) ∧ retries .decPkt s (decPkt s) 4 (holding bytesA) ∧
    retries .decPkt d (decPkt d) 8 (holding bytesA) ∧ retries .encPkt e (encPkt e) 24 (holding bytesB) := by
  refine ⟨?_, ?_, ?_, ?_, ?_, ?_⟩ <;>
    exact ⟨by decide, rfl, by decide, by decide, by decide, by decide⟩

theorem witness_DoneIsStickyUntilReset :
    let s := hosted [.writeReg 0x00 0x0] { State.reset with status := 0x1C21 }
    statusDone s.status = true ∧ step s = .next { s with host := [] } ∧ (∀ rest, s.host ≠ .reset :: rest) ∧
    (∀ v rest, s.host ≠ .resetDuring v :: rest) := by
  refine ⟨by decide, rfl, fun rest => ?_, fun v rest => ?_⟩ <;> simp [hosted]

theorem witness_InstructionsLeaveTheInputAlone :
    (exec .decPkt (loaded bytesB) = .next (decPkt (loaded bytesB)) ∧ isEncode .decPkt = false) ∧
    (exec .encPkt assembling = .next (encPkt assembling) ∧ isDecode .encPkt = false) := ⟨⟨rfl, rfl⟩, rfl, rfl⟩

theorem witness_SingleFieldDecodesWriteTheirOwnRegisters :
    exec .decHdr (loaded bytesA) = .next (decHdr (loaded bytesA)) ∧ exec .decCid (loaded bytesA) = .next (decCid (loaded bytesA)) ∧
    exec .decTrl (loaded bytesA) = .next (decTrl (loaded bytesA)) := ⟨rfl, rfl, rfl⟩

theorem witness_EncodeWritesOnlyItsBytes :
    isEncode .encPkt = true ∧
    (exec .encPkt assembling = .next (encPkt assembling) ∧ statusOk (encPkt assembling).status = true) ∧
    (exec .encPkt State.reset = .next (encPkt State.reset) ∧ statusOk (encPkt State.reset).status = false) :=
  ⟨rfl, ⟨rfl, by decide⟩, rfl, by decide⟩

/-- Scenario B and an IBUF that differs in the first byte above IN_LEN. -/
theorem witness_BytesAboveInLenNeverMatter :
    (∀ a, a < (loaded bytesB).inLen → ((loaded bytesB).ibuf.write 28 0xFF#8).byte .ibuf a = (loaded bytesB).inByte a) ∧
    exec .decPkt (loaded bytesB) = .next (decPkt (loaded bytesB)) := by
  refine ⟨fun a ha => ?_, rfl⟩
  have h : (loaded bytesB).inLen = 28 := by decide
  rw [byte_write, if_neg (by omega)]
  rfl

theorem witness_NoInstructionReadsObuf :
    exec .encPkt assembling = .next (encPkt assembling) ∧ isEncode .encPkt = true ∧ statusOk (encPkt assembling).status = true :=
  ⟨rfl, rfl, by decide⟩

/-- The last cell of each buffer. -/
theorem witness_HostByteWriteStoresOneByte :
    4294967295 < 2 ^ State.reset.lenW ∧
    (hosted [.writeByte .ibuf 4294967295 1#8] State.reset).host = .writeByte .ibuf 4294967295 1#8 :: [] ∧
    (hosted [.writeByte .obuf 4294967295 1#8] State.reset).host = .writeByte .obuf 4294967295 1#8 :: [] := by decide

theorem witness_HostByteReadReturnsTheByte :
    4294967295 < 2 ^ State.reset.lenW ∧
    (hosted [.readByte .ibuf 4294967295] State.reset).host = .readByte .ibuf 4294967295 :: [] ∧
    (hosted [.readByte .obuf 4294967295] State.reset).host = .readByte .obuf 4294967295 :: [] := by decide

/-- The first address above the last cell. -/
theorem witness_AccessBeyondTheBufferFaults :
    2 ^ State.reset.lenW ≤ 4294967296 ∧
    (hosted [.writeByte .ibuf 4294967296 1#8] State.reset).host = .writeByte .ibuf 4294967296 1#8 :: [] ∧
    (hosted [.readByte .obuf 4294967296] State.reset).host = .readByte .obuf 4294967296 :: [] := by decide

/-- Every register the statement names, written with a value wider than it. -/
theorem witness_HostWriteStoresTheTruncatedValue :
    ∀ index ∈ [0x05, 0x06, 0x11, 0x12, 0x13, 0x14, 0x15, 0x16, 0x17, 0x18, 0x19, 0x1A, 0x1B, 0x1C, 0x1D, 0x1E, 0x1F],
      (hosted [.writeReg index (2 ^ 64 + 1)] State.reset).host = .writeReg index (2 ^ 64 + 1) :: [] := by decide

/-- The last legal type and the first illegal one. -/
theorem witness_PktTypeIsWriteAnyReadLegal :
    ∀ v ∈ [5, 6], (hosted [.writeReg 0x10 v] State.reset).host = .writeReg 0x10 v :: [] := by decide

/-- Each clause, the ranges at their ends. -/
theorem witness_ReadOnlyAndUnmappedWritesAreIgnored :
    ∀ index ∈ [0x01, 0x02, 0x03, 0x04, 0x07, 0x08, 0x0F, 0x20],
      (hosted [.writeReg index 1] State.reset).host = .writeReg index 1 :: [] ∧
      (index = 0x01 ∨ index = 0x02 ∨ index = 0x03 ∨ index = 0x04 ∨ index = 0x07 ∨ (0x08 ≤ index ∧ index ≤ 0x0F) ∨ 0x1F < index) := by
  decide

theorem witness_HostReadReturnsTheRegister :
    ∀ index ∈ [0x00, 0x07, 0x08, 0x0F, 0x10, 0x1F, 0x20],
      (hosted [.readReg index] assembling).host = .readReg index :: [] := by decide

theorem witness_ResetClearsTheRegistersAndKeepsTheBuffers : (hosted [.reset] assembling).host = .reset :: [] := rfl

theorem witness_ResetDuringACommandClearsTheRegistersAndKeepsIbuf :
    (hosted [.resetDuring 0x8] assembling).host = .resetDuring 0x8 :: [] := rfl

theorem witness_ForeignWriteDuringACommandIsRefused : (hosted [.foreignDuring 0x7] assembling).host = .foreignDuring 0x7 :: [] := rfl

/-- A state with a command to issue that satisfies the invariant. -/
theorem witness_EveryStepKeepsTheInvariant :
    (hosted [.writeReg 0x00 0x8] assembling).Inv ∧
    step (hosted [.writeReg 0x00 0x8] assembling) = .next (encPkt (hosted [] assembling)) := ⟨by decide, rfl⟩

theorem witness_DecodeReadsBackEveryEncoding :
    (Instr.hdrIllegal67 7#4).wellFormed = true ∧ (Instr.hdrIllegal815 8#4).wellFormed = true := by decide

theorem witness_DecodeIsTotalAndWellFormed :
    [0x00#8, 0x00#8, 0x00#8].length < Position.header.size ∧ Position.header.size ≤ [0xFF#8, 0xFF#8, 0xFF#8, 0xFF#8].length := by decide

theorem witness_HeaderReencodesWithReservedBitsClear : (0x5FFFFFFF#32).toNat / 2 ^ 28 ≤ 5 := by decide

theorem witness_FieldWordsReencodeExactly :
    Position.classId ≠ .command ∧ Position.classId ≠ .header ∧ bytesA.length = Position.classId.size ∧
    decode .classId bytesA = .ok (.classId 0x01000002#32 0xAABB#16 0xCCDD#16, []) := by decide

theorem witness_EveryHeaderWordHasExactlyOneRow :
    headerRows[0]? = some ⟨0x00000000#32, 0xF0000000#32⟩ ∧ headerRows[7]? = some ⟨0x80000000#32, 0x80000000#32⟩ := by decide

end Sys2Proof.Tests
end

section
/-! PROOFS. The decode commands: what each stage does to a command on its way, the packet value DEC_PKT commits, and the closed forms of
DEC_HDR, DEC_CID and DEC_TRL. -/

namespace Sys2Proof.Machine

/-! ## STATUS at the end of a command -/

/-- The errors a command can raise, as far as STATUS and the width of ERR_INFO see them (60_exceptions.md R240, R242, R244). -/
structure CmdError.Legal (s : State) (e : CmdError) : Prop where
  field : e.kind ≠ .invalidEnumCode → e.field = 0#2
  info : e.info ≤ Config.maxPacketBytes ∨ e.info ≤ s.pkt.payOff + s.pkt.payLen

theorem insufficientInput_legal {s : State} {n : Nat}
    (h : n ≤ Config.maxPacketBytes ∨ n ≤ s.pkt.payOff + s.pkt.payLen) : (insufficientInput n).Legal s := ⟨fun _ => rfl, h⟩

/-- A shortfall of the bytes a check asks for is at most those bytes. -/
theorem insufficientInput_sub_legal (s : State) {n : Nat} (k : Nat) (hn : n ≤ Config.maxPacketBytes) :
    (insufficientInput (n - k)).Legal s := insufficientInput_legal (.inl ((Nat.sub_le n k).trans hn))

theorem invalidEnumCode_legal (s : State) (field : BitVec 2) (code : BitVec 4) :
    (invalidEnumCode field code.toNat).Legal s where
  field h := absurd rfl h
  info := .inl (by have := code.isLt; simp only [invalidEnumCode, Config.maxPacketBytes]; omega)

theorem illegalCommand_legal (s : State) (code : BitVec 4) : (illegalCommand code).Legal s where
  field _ := rfl
  info := .inl (by have := code.isLt; simp only [illegalCommand, Config.maxPacketBytes]; omega)

theorem outputTooSmall_legal (s : State) : outputTooSmall.Legal s := ⟨fun _ => rfl, .inl (Nat.zero_le _)⟩

theorem integerConversionOverflow_legal (s : State) : integerConversionOverflow.Legal s :=
  ⟨fun _ => rfl, .inl (Nat.zero_le _)⟩

/-- No kind has one of the codes that are never produced, nor the code of "none" (60_exceptions.md R240). -/
theorem errCode_produced (k : ErrKind) : errCode k ≠ 0#3 ∧ errCode k ≠ 5#3 ∧ errCode k ≠ 6#3 := by
  cases k <;> decide

theorem errCode_eq_one_iff (k : ErrKind) : errCode k = 1#3 ↔ k = .invalidEnumCode := by
  cases k <;> decide

theorem statusLegal_succeed (op : BitVec 4) : statusLegal (packStatus true 0#3 0#2 op) := by
  simp [statusLegal]

theorem statusLegal_fail (s : State) (op : BitVec 4) (e : CmdError) (he : e.Legal s) :
    statusLegal (packStatus false (errCode e.kind) e.field op) := by
  obtain ⟨h0, h5, h6⟩ := errCode_produced e.kind
  have hfield : errCode e.kind ≠ 1#3 → e.field = 0#2 := fun h => he.field (mt (errCode_eq_one_iff _).mpr h)
  simpa [statusLegal, h0, h5, h6] using hfield

/-! ## A decode command on its way -/

/-- A decode command begun in `s` has failed there, or is still reading: then it has changed only the sequencer's working state,
of which `P` holds (44_packet_parser.md R180). -/
inductive DecodeRun (s : State) (op : BitVec 4) (P : Seq → Prop) : State → Prop where
  | failed (e : CmdError) (he : e.Legal s) : DecodeRun s op P (fail op e s)
  | reading (q : Seq) (hop : q.op = op) (hq : P q) : DecodeRun s op P (setSeq q s)

namespace DecodeRun

variable {s t : State} {op : BitVec 4} {P P' : Seq → Prop}

/-- One more stage: a failed command passes it by, a reading one goes through it. -/
theorem stage {k : Seq → State → State} (hk : ∀ q, q.op = op → P q → DecodeRun s op P' (k q (setSeq q s)))
    (h : DecodeRun s op P t) : DecodeRun s op P' (withSeq k t) := by
  cases h with
  | failed e he => exact .failed e he
  | reading q hop hq => exact hk q hop hq

/-- A raise site: the command goes on only where the condition is false. -/
theorem check {bad : Seq → State → Bool} {e : Seq → State → CmdError}
    (hbad : ∀ q, P q → bad q (setSeq q s) = true → (e q (setSeq q s)).Legal s)
    (hgood : ∀ q, P q → bad q (setSeq q s) = false → P' q)
    (h : DecodeRun s op P t) : DecodeRun s op P' (raiseIf bad e t) := by
  refine h.stage fun q hop hq => ?_
  cases hb : bad q (setSeq q s) with
  | true => exact hop ▸ .failed _ (hbad q hq hb)
  | false => exact .reading q hop (hgood q hq hb)

/-- The stages of an optional field run only where the decoded header selects it. -/
theorem optional {sel : Packet → Bool} {k : State → State}
    (hk : ∀ {u}, DecodeRun s op P u → DecodeRun s op P (k u)) (h : DecodeRun s op P t) :
    DecodeRun s op P (ifSel sel k t) := by
  refine h.stage fun q hop hq => ?_
  have hread : DecodeRun s op P (setSeq q s) := .reading q hop hq
  cases sel q.pkt with
  | true => exact hk hread
  | false => exact hread

/-- A field reader: past its bounds check the field lies inside the view (20_memory.md R75). -/
theorem read {k : Seq → State → State} {n : Nat} (hpos : 0 < n) (hn : n ≤ Config.maxPacketBytes)
    (hk : ∀ q, q.op = op → P q → q.cur + n ≤ s.inLen → DecodeRun s op P' (k q (setSeq q s)))
    (h : DecodeRun s op P t) : DecodeRun s op P' (withSeq k (needBytes n t)) := by
  have hneed : DecodeRun s op (fun q => P q ∧ q.cur + n ≤ s.inLen) (needBytes n t) := by
    refine h.check (fun q _ _ => insufficientInput_sub_legal s _ hn) fun q hq hb => ⟨hq, ?_⟩
    have := of_decide_eq_false hb
    simp only [setSeq_inLen] at this
    omega
  exact hneed.stage fun q hop hq => hk q hop hq.1 hq.2

end DecodeRun

/-! ## DEC_PKT

The payload's place and length are a cursor and a running length that stay inside the input view (44_packet_parser.md R197). -/

/-- The header is decoded. -/
structure Seq.HeaderRead (n : Nat) (q : Seq) : Prop where
  pktType : q.pkt.pktType.toNat ≤ 5
  cur : q.cur ≤ n

/-- The optional fields are being read: the cursor and the running length are within the view. -/
structure Seq.FieldsWithin (n : Nat) (q : Seq) : Prop extends q.HeaderRead n where
  total : declaredBytes q ≤ n
  rem : q.rem ≤ n

/-- The payload is placed. -/
structure Seq.PayloadWithin (n : Nat) (q : Seq) : Prop where
  pktType : q.pkt.pktType.toNat ≤ 5
  total : declaredBytes q ≤ n
  payOff : q.pkt.payOff ≤ n
  payLen : q.pkt.payLen ≤ n

theorem declaredBytes_le (q : Seq) : declaredBytes q ≤ Config.maxPacketBytes := by
  have := q.pkt.pktSize.isLt
  simp only [declaredBytes, Config.wordBytes, Config.maxPacketBytes]
  omega

namespace DecodeRun

variable {s t : State} {op : BitVec 4} {P : Seq → Prop}

theorem readHeader (h : DecodeRun s op (fun q => q.cur = 0) t) :
    DecodeRun s op (Seq.HeaderRead s.inLen) (readHeader t) := by
  refine h.read (n := 4) (by decide) (by decide) fun q hop hcur hin => ?_
  rw [decHeaderWord_eq]
  split
  next htype => exact .reading _ hop ⟨htype, by dsimp only; omega⟩
  next => exact hop ▸ .failed _ (invalidEnumCode_legal s _ _)

theorem checkTotal (h : DecodeRun s op (Seq.HeaderRead s.inLen) t) :
    DecodeRun s op (fun q => q.HeaderRead s.inLen ∧ declaredBytes q ≤ s.inLen) (checkTotal t) :=
  h.check (fun q _ _ => insufficientInput_sub_legal s _ (declaredBytes_le q)) fun _ hq hb =>
    ⟨hq, Nat.le_of_not_lt (of_decide_eq_false hb)⟩

theorem checkOverhead (h : DecodeRun s op P t) : DecodeRun s op P (checkOverhead t) :=
  h.check (fun _ _ _ => integerConversionOverflow_legal s) fun _ hq _ => hq

theorem initRem (h : DecodeRun s op (fun q => q.HeaderRead s.inLen ∧ declaredBytes q ≤ s.inLen) t) :
    DecodeRun s op (Seq.FieldsWithin s.inLen) (initRem t) := by
  refine h.stage fun q hop ⟨hhdr, htotal⟩ => .reading _ hop { hhdr with total := htotal, rem := ?_ }
  dsimp only
  omega

/-- The shape of the four optional fields: the cursor moves past the bytes read, the running length shrinks, the header stays. -/
theorem readField {k : Seq → State → State} {n : Nat} {val : Seq → Packet} (hpos : 0 < n)
    (hn : n ≤ Config.maxPacketBytes)
    (hk : ∀ q, k q (setSeq q s) = setSeq { q with cur := q.cur + n, rem := q.rem - n, pkt := val q } s)
    (htype : ∀ q, (val q).pktType = q.pkt.pktType) (hsize : ∀ q, (val q).pktSize = q.pkt.pktSize)
    (h : DecodeRun s op (Seq.FieldsWithin s.inLen) t) :
    DecodeRun s op (Seq.FieldsWithin s.inLen) (withSeq k (needBytes n t)) := by
  refine h.read hpos hn fun q hop hq hin => ?_
  rw [hk q]
  refine .reading _ hop ⟨⟨?_, hin⟩, ?_, (Nat.sub_le _ _).trans hq.rem⟩
  · simpa only [htype] using hq.pktType
  · simpa only [declaredBytes, hsize] using hq.total

theorem readStreamId (h : DecodeRun s op (Seq.FieldsWithin s.inLen) t) :
    DecodeRun s op (Seq.FieldsWithin s.inLen) (readStreamId t) :=
  h.readField (by decide) (by decide) (fun _ => rfl) (fun _ => rfl) fun _ => rfl

theorem readClassId (h : DecodeRun s op (Seq.FieldsWithin s.inLen) t) :
    DecodeRun s op (Seq.FieldsWithin s.inLen) (readClassId t) :=
  h.readField (by decide) (by decide) (fun _ => rfl) (fun _ => rfl) fun _ => rfl

theorem readTsi (h : DecodeRun s op (Seq.FieldsWithin s.inLen) t) :
    DecodeRun s op (Seq.FieldsWithin s.inLen) (readTsi t) :=
  h.readField (by decide) (by decide) (fun _ => rfl) (fun _ => rfl) fun _ => rfl

theorem readTsf (h : DecodeRun s op (Seq.FieldsWithin s.inLen) t) :
    DecodeRun s op (Seq.FieldsWithin s.inLen) (readTsf t) :=
  h.readField (by decide) (by decide) (fun _ => rfl) (fun _ => rfl) fun _ => rfl

theorem takePayload (h : DecodeRun s op (Seq.FieldsWithin s.inLen) t) :
    DecodeRun s op (Seq.PayloadWithin s.inLen) (takePayload t) :=
  h.stage fun _ hop hq => .reading _ hop ⟨hq.pktType, hq.total, hq.cur, hq.rem⟩

theorem takeTrailer (w : BitVec 32) (h : DecodeRun s op (Seq.PayloadWithin s.inLen) t) :
    DecodeRun s op (Seq.PayloadWithin s.inLen) (takeTrailer w t) :=
  h.stage fun _ hop hq => .reading _ hop ⟨hq.pktType, hq.total, hq.payOff, hq.payLen⟩

theorem readTrailer (h : DecodeRun s op (Seq.PayloadWithin s.inLen) t) :
    DecodeRun s op (Seq.PayloadWithin s.inLen) (readTrailer t) :=
  h.read (by decide) (by decide) fun q hop hq _ => (DecodeRun.reading q hop hq).takeTrailer _

end DecodeRun

/-- DEC_PKT fails and leaves the registers, or commits a packet value whose lengths lie inside the input view. -/
theorem decPkt_cases (s : State) :
    (∃ e : CmdError, e.Legal s ∧ decPkt s = fail 7#4 e s) ∨
    ∃ q : Seq, q.PayloadWithin s.inLen ∧
      decPkt s = succeed 7#4 (declaredBytes q) (s.inLen - declaredBytes q) { s with pkt := q.pkt } := by
  have hstart : DecodeRun s 7#4 (fun q => q.cur = 0) (start 7#4 s) := .reading _ rfl rfl
  have hheader := hstart.readHeader.checkTotal.checkOverhead.initRem
  have hfields := ((((hheader.optional (sel := selS) .readStreamId).optional (sel := selC) .readClassId).optional
    (sel := selI) .readTsi).optional (sel := selF) .readTsf)
  have hpacket := hfields.takePayload.optional (sel := selT) .readTrailer
  unfold decPkt
  generalize ifSel selT readTrailer _ = u at hpacket ⊢
  cases hpacket with
  | failed e he => exact .inl ⟨e, he, rfl⟩
  | reading q hop hq => exact .inr ⟨q, hq, hop ▸ rfl⟩

/-! ## The single-field decodes -/

/-- The registers after DEC_HDR on a header word. -/
def Packet.withHeader (p : Packet) (w : BitVec 32) : Packet :=
  { p with
    pktType := hdrType w, cidPresent := hdrClassId w, trlPresent := hdrTrailer w, tsiKind := hdrTsi w, tsfKind := hdrTsf w,
    pktCount := hdrCount w, pktSize := hdrSize w }

theorem readHeader_start (op : BitVec 4) (s : State) :
    readHeader (start op s) =
      if s.inLen < 4 then fail op (insufficientInput (4 - s.inLen)) s
      else decHeaderWord (wordAt s 0) (start op s) := by
  rw [← ofNat_memRead_four]
  exact readHeader_some (start_seq op s)

theorem readClassId_start (op : BitVec 4) (s : State) :
    readClassId (start op s) =
      if s.inLen < 8 then fail op (insufficientInput (8 - s.inLen)) s
      else takeClassId (wordAt s 0) (halfAt s 4) (halfAt s 6) (start op s) := by
  rw [← ofNat_memRead_four, ← ofNat_memRead_two, ← ofNat_memRead_two]
  exact readClassId_some (start_seq op s)

theorem readTrailer_start (op : BitVec 4) (s : State) :
    readTrailer (start op s) =
      if s.inLen < 4 then fail op (insufficientInput (4 - s.inLen)) s
      else takeTrailer (wordAt s 0) (start op s) := by
  rw [← ofNat_memRead_four]
  exact readTrailer_some (start_seq op s)

theorem decHdr_eq (s : State) :
    decHdr s =
      if s.inLen < 4 then fail 1#4 (insufficientInput (4 - s.inLen)) s
      else if (hdrType (wordAt s 0)).toNat ≤ 5 then
        succeed 1#4 4 (s.inLen - 4) { s with pkt := s.pkt.withHeader (wordAt s 0) }
      else fail 1#4 (invalidEnumCode fieldPacketType (hdrType (wordAt s 0)).toNat) s := by
  rw [decHdr, readHeader_start, decHeaderWord_eq]
  split
  · rfl
  · split <;> rfl

theorem decCid_eq (s : State) :
    decCid s =
      if s.inLen < 8 then fail 3#4 (insufficientInput (8 - s.inLen)) s
      else succeed 3#4 8 (s.inLen - 8) { s with pkt := { s.pkt with
        classOui := wordAt s 0, classIcc := halfAt s 4, classPcc := halfAt s 6 } } := by
  rw [decCid, readClassId_start]
  split <;> rfl

theorem decTrl_eq (s : State) :
    decTrl s =
      if s.inLen < 4 then fail 5#4 (insufficientInput (4 - s.inLen)) s
      else succeed 5#4 4 (s.inLen - 4) { s with pkt := { s.pkt with trailer := wordAt s 0 } } := by
  rw [decTrl, readTrailer_start]
  split <;> rfl

end Sys2Proof.Machine
end

section
/-! PROOFS. The encode commands in closed form, and the three ways a command ends. -/

namespace Sys2Proof.Machine

/-! ## The encodes -/

/-- An encode command begun in `s` that has emitted these bytes so far. -/
def emitting (s : State) (op : BitVec 4) (bs : List Byte) : State :=
  { s with obuf := s.obuf.writeBytes 0 bs, seq := some { op := op, cur := bs.length, rem := 0, pkt := Packet.zero } }

theorem start_eq_emitting (op : BitVec 4) (s : State) : start op s = emitting s op [] := rfl

/-- One more field: its bytes follow the ones emitted, and are those of the state the command began in (20_memory.md R77). -/
theorem emit_emitting {s : State} {op : BitVec 4} {bs : List Byte} (f : State → List Byte)
    (hf : f (emitting s op bs) = f s) : emit f (emitting s op bs) = emitting s op (bs ++ f s) := by
  rw [emit_some f rfl, hf]
  simp only [emitting, writeBytes_append, List.length_append, Nat.zero_add]

theorem emitIf_emitting {s : State} {op : BitVec 4} {bs : List Byte} (sel : Packet → Bool) (f : State → List Byte)
    (hf : f (emitting s op bs) = f s) :
    emitIf sel f (emitting s op bs) = emitting s op (bs ++ if sel s.pkt then f s else []) := by
  rw [emitIf_some sel f rfl, emit_emitting f hf]
  cases h : sel s.pkt <;> simp [emitting, h]

/-- The single-field encodes: one capacity test, then one field. -/
theorem encodeField_eq (op : BitVec 4) (n : Nat) (f : Packet → List Byte) (s : State) :
    finishEncode n (emit (fun s => f s.pkt) (needRoom n (start op s))) =
      if s.outCap < n then fail op outputTooSmall s
      else succeed op n 0 { s with obuf := s.obuf.writeBytes 0 (f s.pkt) } := by
  rw [needRoom_some n (start_seq op s), start_outCap]
  split
  · rfl
  · rw [start_eq_emitting, emit_emitting _ rfl]
    rfl

theorem encHdr_eq (s : State) :
    encHdr s =
      if s.outCap < 4 then fail 2#4 outputTooSmall s
      else succeed 2#4 4 0 { s with obuf := s.obuf.writeBytes 0 (wireHeader s.pkt s.pkt.pktSize) } := by
  rw [← headerBytes_eq]
  exact encodeField_eq 2#4 4 (fun p => headerBytes p p.pktSize) s

theorem encCid_eq (s : State) :
    encCid s =
      if s.outCap < 8 then fail 4#4 outputTooSmall s
      else succeed 4#4 8 0 { s with obuf := s.obuf.writeBytes 0 (wireClassId s.pkt) } := by
  rw [← classIdBytes_eq]
  exact encodeField_eq 4#4 8 classIdBytes s

theorem encTrl_eq (s : State) :
    encTrl s =
      if s.outCap < 4 then fail 6#4 outputTooSmall s
      else succeed 6#4 4 0 { s with obuf := s.obuf.writeBytes 0 (wire32 s.pkt.trailer) } := by
  rw [← beBytes_four]
  exact encodeField_eq 6#4 4 (fun p => beBytes 4 p.trailer.toNat) s

theorem wirePacket_length_eq_assembledBytes (s : State) (n : Nat) : (wirePacket s n).length = assembledBytes s.pkt := by
  rw [wirePacket_length, assembledBytes, overhead_eq]

/-- The emission of ENC_PKT is the packet written out in Safety.lean. -/
theorem encPkt_emission (s : State) :
    (start 8#4 s
      |> emit (fun s => headerBytes s.pkt (BitVec.ofNat 16 (assembledWords s.pkt)))
      |> emitIf selS (fun s => beBytes 4 s.pkt.streamId.toNat) |> emitIf selC (fun s => classIdBytes s.pkt)
      |> emitIf selI (fun s => beBytes 4 s.pkt.tsiVal.toNat) |> emitIf selF (fun s => beBytes 8 s.pkt.tsfVal.toNat)
      |> emit (fun s => inBytes s s.pkt.payOff s.pkt.payLen) |> emitIf selT (fun s => beBytes 4 s.pkt.trailer.toNat)) =
    emitting s 8#4 (wirePacket s (assembledWords s.pkt)) := by
  rw [start_eq_emitting, emit_emitting _ rfl, emitIf_emitting _ _ rfl, emitIf_emitting _ _ rfl, emitIf_emitting _ _ rfl,
    emitIf_emitting _ _ rfl, emit_emitting _ rfl, emitIf_emitting _ _ rfl]
  simp only [headerBytes_eq, classIdBytes_eq, beBytes_four, beBytes_eight, List.nil_append]
  rfl

theorem encPkt_eq (s : State) :
    encPkt s =
      if s.pkt.payLen % 4 ≠ 0 then fail 8#4 integerConversionOverflow s
      else if 65535 < assembledWords s.pkt then fail 8#4 integerConversionOverflow s
      else if s.inLen < s.pkt.payOff + s.pkt.payLen then
        fail 8#4 (insufficientInput (s.pkt.payOff + s.pkt.payLen - s.inLen)) s
      else if s.outCap < assembledBytes s.pkt then fail 8#4 outputTooSmall s
      else succeed 8#4 (assembledBytes s.pkt) 0
        { s with obuf := s.obuf.writeBytes 0 (wirePacket s (assembledWords s.pkt)) } := by
  have hseq := start_seq 8#4 s
  unfold encPkt
  rw [checkWholeWords_some hseq, start_pkt]
  split
  · rfl
  rw [checkPacketSize_some hseq, start_pkt]
  split
  · rfl
  rw [checkPayloadView_some hseq, start_pkt, start_inLen]
  split
  · rfl
  rw [checkCapacity_some hseq, start_pkt, start_outCap]
  split
  · rfl
  rw [encPkt_emission]
  rfl

/-! ## How a command ends -/

/-- The three ways a command begun in `s` ends (60_exceptions.md R246, R247): it fails, a decode commits packet registers, an encode
writes its bytes from OBUF address 0 upward. -/
inductive CommandEnd (s : State) (op : BitVec 4) : State → Prop where
  | failed (e : CmdError) (he : e.Legal s) : CommandEnd s op (fail op e s)
  | decoded (p : Packet) (x : Nat) (hx : x ≤ s.inLen)
      (htype : p.pktType.toNat ≤ 5 ∨ p.pktType = s.pkt.pktType)
      (hoff : p.payOff ≤ s.inLen ∨ p.payOff = s.pkt.payOff)
      (hlen : p.payLen ≤ s.inLen ∨ p.payLen = s.pkt.payLen) :
      CommandEnd s op (succeed op x (s.inLen - x) { s with pkt := p })
  | encoded (bs : List Byte) (hroom : bs.length ≤ s.outCap) :
      CommandEnd s op (succeed op bs.length 0 { s with obuf := s.obuf.writeBytes 0 bs })

theorem decHdr_ends (s : State) : CommandEnd s 1#4 (decHdr s) := by
  rw [decHdr_eq]
  split
  next => exact .failed _ (insufficientInput_sub_legal s _ (by decide))
  next hin =>
    split
    next htype => exact .decoded _ 4 (by omega) (.inl htype) (.inr rfl) (.inr rfl)
    next => exact .failed _ (invalidEnumCode_legal s _ _)

theorem decCid_ends (s : State) : CommandEnd s 3#4 (decCid s) := by
  rw [decCid_eq]
  split
  next => exact .failed _ (insufficientInput_sub_legal s _ (by decide))
  next hin => exact .decoded _ 8 (by omega) (.inr rfl) (.inr rfl) (.inr rfl)

theorem decTrl_ends (s : State) : CommandEnd s 5#4 (decTrl s) := by
  rw [decTrl_eq]
  split
  next => exact .failed _ (insufficientInput_sub_legal s _ (by decide))
  next hin => exact .decoded _ 4 (by omega) (.inr rfl) (.inr rfl) (.inr rfl)

theorem decPkt_ends (s : State) : CommandEnd s 7#4 (decPkt s) := by
  obtain ⟨e, he, heq⟩ | ⟨q, hq, heq⟩ := decPkt_cases s
  · exact heq ▸ .failed e he
  · exact heq ▸ .decoded q.pkt _ hq.total (.inl hq.pktType) (.inl hq.payOff) (.inl hq.payLen)

/-- What an encode command does is settled by everything but OBUF (10_state.md R37): with any OBUF it fails with the same error, or it
writes the same bytes. -/
inductive EncodeEnd (s : State) (op : BitVec 4) (k : State → State) : Prop where
  | failed (e : CmdError) (he : e.Legal s) (h : ∀ m, k { s with obuf := m } = fail op e { s with obuf := m })
  | wrote (bs : List Byte) (hroom : bs.length ≤ s.outCap)
      (h : ∀ m, k { s with obuf := m } = succeed op bs.length 0 { s with obuf := m.writeBytes 0 bs })

theorem EncodeEnd.commandEnd {s : State} {op : BitVec 4} {k : State → State} (h : EncodeEnd s op k) :
    CommandEnd s op (k s) := by
  cases h with
  | failed e he h => exact h s.obuf ▸ .failed e he
  | wrote bs hroom h => exact h s.obuf ▸ .encoded bs hroom

/-- A single-field encode has one test, of the capacity for its field. -/
theorem EncodeEnd.ofField {s : State} {op : BitVec 4} {k : State → State} (bs : List Byte)
    (h : ∀ m, k { s with obuf := m } =
      if s.outCap < bs.length then fail op outputTooSmall { s with obuf := m }
      else succeed op bs.length 0 { s with obuf := m.writeBytes 0 bs }) : EncodeEnd s op k := by
  by_cases hroom : s.outCap < bs.length
  · exact .failed _ (outputTooSmall_legal s) fun m => by rw [h m, if_pos hroom]
  · exact .wrote bs (Nat.le_of_not_lt hroom) fun m => by rw [h m, if_neg hroom]

theorem encHdr_ends (s : State) : EncodeEnd s 2#4 encHdr := .ofField (wireHeader s.pkt s.pkt.pktSize) fun _ => encHdr_eq _

theorem encCid_ends (s : State) : EncodeEnd s 4#4 encCid := .ofField (wireClassId s.pkt) fun _ => encCid_eq _

theorem encTrl_ends (s : State) : EncodeEnd s 6#4 encTrl := .ofField (wire32 s.pkt.trailer) fun _ => encTrl_eq _

theorem encPkt_ends (s : State) : EncodeEnd s 8#4 encPkt := by
  have heq := fun m => encPkt_eq { s with obuf := m }
  by_cases hwords : s.pkt.payLen % 4 ≠ 0
  · exact .failed _ (integerConversionOverflow_legal s) fun m => by rw [heq, if_pos hwords]
  by_cases hsize : 65535 < assembledWords s.pkt
  · exact .failed _ (integerConversionOverflow_legal s) fun m => by rw [heq, if_neg hwords, if_pos hsize]
  by_cases hview : s.inLen < s.pkt.payOff + s.pkt.payLen
  · exact .failed _ (insufficientInput_legal (.inr (Nat.sub_le _ s.inLen))) fun m => by
      rw [heq, if_neg hwords, if_neg hsize, if_pos hview]
  by_cases hroom : s.outCap < assembledBytes s.pkt
  · exact .failed _ (outputTooSmall_legal s) fun m => by
      rw [heq, if_neg hwords, if_neg hsize, if_neg hview, if_pos hroom]
  · have hlength := wirePacket_length_eq_assembledBytes s (assembledWords s.pkt)
    refine .wrote (wirePacket s (assembledWords s.pkt)) (by omega) fun m => ?_
    rw [heq, if_neg hwords, if_neg hsize, if_neg hview, if_neg hroom, hlength]
    rfl

/-- Every command but NOP ends in one of the three ways, under its own code (46_control_commands.md R230 to R232). -/
theorem exec_command_ends (i : Instr) (s : State) (hcmd : i.position = .command) (hnop : i ≠ .nop) :
    ∃ t, exec i s = .next t ∧ CommandEnd s (commandCode i) t := by
  cases i with
  | nop => exact absurd rfl hnop
  | decHdr => exact ⟨_, rfl, decHdr_ends s⟩
  | encHdr => exact ⟨_, rfl, (encHdr_ends s).commandEnd⟩
  | decCid => exact ⟨_, rfl, decCid_ends s⟩
  | encCid => exact ⟨_, rfl, (encCid_ends s).commandEnd⟩
  | decTrl => exact ⟨_, rfl, decTrl_ends s⟩
  | encTrl => exact ⟨_, rfl, (encTrl_ends s).commandEnd⟩
  | decPkt => exact ⟨_, rfl, decPkt_ends s⟩
  | encPkt => exact ⟨_, rfl, (encPkt_ends s).commandEnd⟩
  | reserved9 | reservedA | reservedB | reservedC | reservedD | reservedE | reservedF =>
    exact ⟨_, rfl, .failed _ (illegalCommand_legal s _)⟩
  | _ => exact absurd hcmd (by simp [Instr.position])

theorem CommandEnd.done {s t : State} {op : BitVec 4} (h : CommandEnd s op t) : statusDone t.status = true := by
  cases h <;> simp

end Sys2Proof.Machine
end

section
/-! PROOFS. The host port: the next state of each transaction, and what every one of them keeps. -/

namespace Sys2Proof.Machine

/-! ## What a host transaction does -/

theorem decodeCommand_position (v : Nat) : (decodeCommand v).position = .command := by
  unfold decodeCommand
  split <;> rfl

/-- Indices above 0x1F and 0x08 to 0x0F select no register (10_state.md R34). -/
theorem regOfIndex_unmapped {index : Nat} (h : (0x08 ≤ index ∧ index ≤ 0x0F) ∨ 0x1F < index) :
    regOfIndex index = none := by
  unfold regOfIndex
  split
  case h_25 => rfl
  all_goals omega

theorem step_cons {s : State} {x : Txn} {rest : List Txn} (h : s.host = x :: rest) :
    step s = transact x { s with host := rest } := by
  simp only [step, hostStep, h]

theorem step_nil {s : State} (h : s.host = []) : step s = .next s := by
  simp only [step, hostStep, h]

/-- A write of a mapped register other than CMD (46_control_commands.md R234). -/
theorem hostWrite_mapped {index : Nat} {r : Reg} (hreg : regOfIndex index = some r) (hcmd : r ≠ .cmd) (v : Nat) (s : State) :
    hostWrite index v s = .next (writeReg v s r) := by
  have hfetch : fetchCommand index v = none := by
    unfold fetchCommand
    split
    · exact absurd (Option.some.inj (hreg.symm.trans ‹_›)) hcmd
    · rfl
  simp only [hostWrite, hfetch, writeIndex, hreg]

theorem hostWrite_unmapped {index : Nat} (hreg : regOfIndex index = none) (v : Nat) (s : State) :
    hostWrite index v s = .next s := by
  simp only [hostWrite, fetchCommand, writeIndex, hreg]

/-- The step of a host write of a mapped register other than CMD. -/
theorem step_writeReg {s : State} {index v : Nat} {rest : List Txn} {r : Reg} (h : s.host = .writeReg index v :: rest)
    (hreg : regOfIndex index = some r) (hcmd : r ≠ .cmd) : step s = .next (writeReg v { s with host := rest } r) :=
  (step_cons h).trans (hostWrite_mapped hreg hcmd v _)

/-- The next state of each transaction, for the ones that have one. -/
inductive Transacted (s : State) : Txn → State → Prop where
  | command (v : Nat) (t : State) (h : exec (decodeCommand v) s = .next t) : Transacted s (.writeReg 0x00 v) t
  | register (index v : Nat) (r : Reg) (hreg : regOfIndex index = some r) (hcmd : r ≠ .cmd) :
      Transacted s (.writeReg index v) (writeReg v s r)
  | unmapped (index v : Nat) (hreg : regOfIndex index = none) : Transacted s (.writeReg index v) s
  | readReg (index : Nat) : Transacted s (.readReg index) { s with rdata := readIndex s index }
  | writeIbuf (a : Nat) (b : Byte) (ha : a < 2 ^ s.lenW) :
      Transacted s (.writeByte .ibuf a b) { s with ibuf := s.ibuf.write a b }
  | writeObuf (a : Nat) (b : Byte) (ha : a < 2 ^ s.lenW) :
      Transacted s (.writeByte .obuf a b) { s with obuf := s.obuf.write a b }
  | readIbuf (a : Nat) (ha : a < 2 ^ s.lenW) : Transacted s (.readByte .ibuf a) { s with rdata := (s.inByte a).toNat }
  | readObuf (a : Nat) (ha : a < 2 ^ s.lenW) : Transacted s (.readByte .obuf a) { s with rdata := (s.outByte a).toNat }
  | reset : Transacted s .reset (resetBlock s)
  | resetDuring (v : Nat) : Transacted s (.resetDuring v) (resetCut s)

theorem regOfIndex_eq_cmd {index : Nat} (h : regOfIndex index = some .cmd) : index = 0x00 := by
  unfold regOfIndex at h
  split at h
  case h_1 => rfl
  all_goals contradiction

theorem hostWrite_transacted {index v : Nat} {s t : State} (h : hostWrite index v s = .next t) :
    Transacted s (.writeReg index v) t := by
  cases hreg : regOfIndex index with
  | none =>
    rw [hostWrite_unmapped hreg] at h
    cases h
    exact .unmapped index v hreg
  | some r =>
    by_cases hcmd : r = .cmd
    · subst hcmd
      obtain rfl := regOfIndex_eq_cmd hreg
      exact .command v t h
    · rw [hostWrite_mapped hreg hcmd] at h
      cases h
      exact .register index v r hreg hcmd

theorem hostWriteByte_transacted {buffer : BufId} {a : Nat} {b : Byte} {s t : State}
    (h : hostWriteByte buffer a b s = .next t) : Transacted s (.writeByte buffer a b) t := by
  unfold hostWriteByte at h
  by_cases ha : a < 2 ^ s.lenW
  · rw [if_pos ha] at h
    cases buffer <;> cases h
    · exact .writeIbuf a b ha
    · exact .writeObuf a b ha
  · rw [if_neg ha] at h
    cases h

theorem hostReadByte_transacted {buffer : BufId} {a : Nat} {s t : State} (h : hostReadByte buffer a s = .next t) :
    Transacted s (.readByte buffer a) t := by
  unfold hostReadByte at h
  by_cases ha : a < 2 ^ s.lenW
  · rw [if_pos ha] at h
    cases buffer <;> cases h
    · exact .readIbuf a ha
    · exact .readObuf a ha
  · rw [if_neg ha] at h
    cases h

theorem transact_transacted {x : Txn} {s t : State} (h : transact x s = .next t) : Transacted s x t := by
  cases x with
  | writeReg index v => exact hostWrite_transacted h
  | readReg index => cases h; exact .readReg index
  | writeByte buffer a b => exact hostWriteByte_transacted h
  | readByte buffer a => exact hostReadByte_transacted h
  | reset => cases h; exact .reset
  | resetDuring v => cases h; exact .resetDuring v
  | foreignDuring v => cases h

/-- A step holds the state, or performs the host's next transaction. -/
theorem step_cases {s t : State} (h : step s = .next t) :
    (s.host = [] ∧ t = s) ∨ ∃ x rest, s.host = x :: rest ∧ Transacted { s with host := rest } x t := by
  cases hhost : s.host with
  | nil =>
    rw [step_nil hhost] at h
    cases h
    exact .inl ⟨rfl, rfl⟩
  | cons x rest => exact .inr ⟨x, rest, rfl, transact_transacted ((step_cons hhost).symm.trans h)⟩

/-- A write of CMD runs NOP, which changes nothing, or a command that ends in one of the three ways. -/
theorem exec_decodeCommand_cases {v : Nat} {s t : State} (h : exec (decodeCommand v) s = .next t) :
    t = s ∨ ∃ op, CommandEnd s op t := by
  by_cases hnop : decodeCommand v = .nop
  · rw [hnop] at h
    cases h
    exact .inl rfl
  · obtain ⟨u, hu, hend⟩ := exec_command_ends _ s (decodeCommand_position v) hnop
    rw [hu] at h
    cases h
    exact .inr ⟨_, hend⟩

/-! ## The invariant -/

/-- A command ends with the invariant it began with. -/
theorem CommandEnd.keepsInv {s t : State} {op : BitVec 4} (h : CommandEnd s op t) (hs : s.Inv) : t.Inv := by
  obtain ⟨hlenW, htype, -, ⟨hin, hcap, -, -, hoff, hlen, -⟩, hbuf, -⟩ := hs
  have hpos : 0 < 2 ^ s.lenW := by positivity
  have hmin : 2 ^ Config.minLenW ≤ 2 ^ s.lenW := Nat.pow_le_pow_right (by omega) hlenW
  have hinfoW : 2 ^ Config.infoW s.lenW = 2 * 2 ^ s.lenW := Nat.pow_succ'
  cases h with
  | failed e he =>
    have hinfo : e.info < 2 ^ Config.infoW s.lenW := by
      obtain h | h := he.info
      · simp only [Config.minLenW, Config.maxPacketBytes] at hmin h
        omega
      · omega
    exact ⟨hlenW, htype, statusLegal_fail s op e he, ⟨hin, hcap, hpos, hpos, hoff, hlen, hinfo⟩, hbuf, rfl⟩
  | decoded p x hx hptype hpoff hplen =>
    refine ⟨hlenW, ?_, statusLegal_succeed op, ⟨hin, hcap, ?_, ?_, ?_, ?_, Nat.two_pow_pos _⟩, hbuf, rfl⟩
    · exact hptype.elim id fun h => h ▸ htype
    · exact Nat.lt_of_le_of_lt hx hin
    · exact Nat.lt_of_le_of_lt (Nat.sub_le _ _) hin
    · exact hpoff.elim (Nat.lt_of_le_of_lt · hin) fun h => h ▸ hoff
    · exact hplen.elim (Nat.lt_of_le_of_lt · hin) fun h => h ▸ hlen
  | encoded bs hroom =>
    obtain ⟨hiwf, howf, hirange, horange⟩ := hbuf
    have hfit : bs.length < 2 ^ s.lenW := Nat.lt_of_le_of_lt hroom hcap
    refine ⟨hlenW, htype, statusLegal_succeed op, ⟨hin, hcap, hfit, hpos, hoff, hlen, Nat.two_pow_pos _⟩, ?_, rfl⟩
    exact ⟨hiwf, wf_writeBytes _ _ _ howf, hirange, inRange_writeBytes s.lenW _ _ _ (by omega) horange⟩

theorem writePktType_pktType_legal {v : Nat} {p : Packet} (h : p.pktType.toNat ≤ 5) :
    (writePktType v p).pktType.toNat ≤ 5 := by
  unfold writePktType
  split
  next hv => simpa using hv
  next => exact h

theorem writePktType_payOff (v : Nat) (p : Packet) : (writePktType v p).payOff = p.payOff := by
  unfold writePktType
  split <;> rfl

theorem writePktType_payLen (v : Nat) (p : Packet) : (writePktType v p).payLen = p.payLen := by
  unfold writePktType
  split <;> rfl

/-- A register write stores a value of the register's width, and a packet type only if it is legal (10_state.md R22, R23). -/
theorem writeReg_keepsInv {s : State} (v : Nat) (r : Reg) (hs : s.Inv) : (writeReg v s r).Inv := by
  obtain ⟨hlenW, htype, hstatus, ⟨hin, hcap, hxfer, hrem, hoff, hlen, hinfo⟩, hbuf, hseq⟩ := hs
  have hcut : v % 2 ^ s.lenW < 2 ^ s.lenW := Nat.mod_lt _ (Nat.two_pow_pos _)
  cases r with
  | inLen => exact ⟨hlenW, htype, hstatus, ⟨hcut, hcap, hxfer, hrem, hoff, hlen, hinfo⟩, hbuf, hseq⟩
  | outCap => exact ⟨hlenW, htype, hstatus, ⟨hin, hcut, hxfer, hrem, hoff, hlen, hinfo⟩, hbuf, hseq⟩
  | payOff => exact ⟨hlenW, htype, hstatus, ⟨hin, hcap, hxfer, hrem, hcut, hlen, hinfo⟩, hbuf, hseq⟩
  | payLen => exact ⟨hlenW, htype, hstatus, ⟨hin, hcap, hxfer, hrem, hoff, hcut, hinfo⟩, hbuf, hseq⟩
  | pktType =>
    refine ⟨hlenW, writePktType_pktType_legal htype, hstatus, ⟨hin, hcap, hxfer, hrem, ?_, ?_, hinfo⟩, hbuf, hseq⟩
    · exact (writePktType_payOff v s.pkt).symm ▸ hoff
    · exact (writePktType_payLen v s.pkt).symm ▸ hlen
  | _ => exact ⟨hlenW, htype, hstatus, ⟨hin, hcap, hxfer, hrem, hoff, hlen, hinfo⟩, hbuf, hseq⟩

theorem statusLegal_zero : statusLegal 0#32 := by decide

theorem resetBlock_keepsInv {s : State} (hs : s.Inv) : (resetBlock s).Inv := by
  obtain ⟨hlenW, -, -, -, hbuf, -⟩ := hs
  have hpos : 0 < 2 ^ s.lenW := Nat.two_pow_pos _
  exact ⟨hlenW, Nat.zero_le 5, statusLegal_zero, ⟨hpos, hpos, hpos, hpos, hpos, hpos, Nat.two_pow_pos _⟩, hbuf, rfl⟩

theorem resetCut_keepsInv {s : State} (hs : s.Inv) : (resetCut s).Inv := by
  obtain ⟨hlenW, htype, hstatus, hwidths, ⟨hiwf, -, hirange, -⟩, hseq⟩ := resetBlock_keepsInv hs
  exact ⟨hlenW, htype, hstatus, hwidths, ⟨hiwf, wf_scramble _, hirange, inRange_scramble _ _⟩, hseq⟩

theorem Transacted.keepsInv {s t : State} {x : Txn} (h : Transacted s x t) (hs : s.Inv) : t.Inv := by
  have ⟨hlenW, htype, hstatus, hwidths, ⟨hiwf, howf, hirange, horange⟩, hseq⟩ := hs
  cases h with
  | command v _ h =>
    obtain rfl | ⟨op, hend⟩ := exec_decodeCommand_cases h
    · exact hs
    · exact hend.keepsInv hs
  | register index v r => exact writeReg_keepsInv v r hs
  | unmapped => exact hs
  | readReg => exact hs
  | writeIbuf a b ha =>
    exact ⟨hlenW, htype, hstatus, hwidths, ⟨wf_write _ a b hiwf, howf, inRange_write _ _ a b ha hirange, horange⟩, hseq⟩
  | writeObuf a b ha =>
    exact ⟨hlenW, htype, hstatus, hwidths, ⟨hiwf, wf_write _ a b howf, hirange, inRange_write _ _ a b ha horange⟩, hseq⟩
  | readIbuf | readObuf => exact hs
  | reset => exact resetBlock_keepsInv hs
  | resetDuring => exact resetCut_keepsInv hs

theorem writeReg_status (v : Nat) (s : State) (r : Reg) : (writeReg v s r).status = s.status := by
  cases r <;> rfl

end Sys2Proof.Machine
end

section
/-! PROOFS. OBUF is not read (10_state.md R37), and PRESENT bit by bit (R26). -/

namespace Sys2Proof.Machine

/-! ## OBUF is not read -/

/-- The same state over another OBUF. -/
def State.withObuf (s : State) (m : Memory) : State := { s with obuf := m }

/-- A stage that neither reads nor writes OBUF: over any other OBUF it does the same. -/
def ObufBlind (k : State → State) : Prop := ∀ s m, k (s.withObuf m) = (k s).withObuf m

namespace ObufBlind

theorem comp {f g : State → State} (hg : ObufBlind g) (hf : ObufBlind f) : ObufBlind fun s => g (f s) :=
  fun s m => (congrArg g (hf s m)).trans (hg (f s) m)

theorem withSeq {k : Seq → State → State} (hk : ∀ q, ObufBlind (k q)) : ObufBlind (withSeq k) := by
  intro s m
  cases hseq : s.seq with
  | none =>
    have hseq' : (s.withObuf m).seq = none := hseq
    rw [withSeq_none k hseq, withSeq_none k hseq']
  | some q =>
    have hseq' : (s.withObuf m).seq = some q := hseq
    rw [withSeq_some k hseq, withSeq_some k hseq', hk q s m]

theorem ite {c : State → Prop} [DecidablePred c] {f g : State → State} (hc : ∀ s m, c (s.withObuf m) ↔ c s)
    (hf : ObufBlind f) (hg : ObufBlind g) : ObufBlind fun s => if c s then f s else g s := by
  intro s m
  by_cases h : c s
  · simp only [if_pos h, if_pos ((hc s m).mpr h), hf s m]
  · simp only [if_neg h, if_neg (mt (hc s m).mp h), hg s m]

theorem raiseIf {bad : Seq → State → Bool} {e : Seq → State → CmdError}
    (hbad : ∀ q s m, bad q (s.withObuf m) = bad q s) (he : ∀ q s m, e q (s.withObuf m) = e q s) :
    ObufBlind (raiseIf bad e) :=
  withSeq fun q => ite (fun s m => by rw [hbad]) (fun s m => by rw [he]; rfl) fun _ _ => rfl

theorem ifSel {sel : Packet → Bool} {k : State → State} (hk : ObufBlind k) : ObufBlind (ifSel sel k) :=
  withSeq fun _ => ite (fun _ _ => Iff.rfl) hk fun _ _ => rfl

/-- A reader is blind to OBUF if the word's effect is: the bounds check looks at IN_LEN only. -/
theorem reader {k : Seq → State → State} {n : Nat} (hk : ∀ q, ObufBlind (k q)) :
    ObufBlind fun s => Machine.withSeq k (needBytes n s) :=
  (withSeq hk).comp (raiseIf (fun _ _ _ => rfl) fun _ _ _ => rfl)

theorem takeHeader (ty : BitVec 4) (c t : BitVec 1) (tsi tsf : BitVec 2) (cnt : BitVec 4) (size : BitVec 16) :
    ObufBlind (takeHeader ty c t tsi tsf cnt size) := withSeq fun _ _ _ => rfl

theorem rejectType (code : Nat) : ObufBlind (rejectType code) := withSeq fun _ _ _ => rfl

theorem takeStreamId (v : BitVec 32) : ObufBlind (takeStreamId v) := withSeq fun _ _ _ => rfl

theorem takeClassId (oui : BitVec 32) (icc pcc : BitVec 16) : ObufBlind (takeClassId oui icc pcc) :=
  withSeq fun _ _ _ => rfl

theorem takeTsi (v : BitVec 32) : ObufBlind (takeTsi v) := withSeq fun _ _ _ => rfl

theorem takeTsf (v : BitVec 64) : ObufBlind (takeTsf v) := withSeq fun _ _ _ => rfl

theorem takeTrailer (w : BitVec 32) : ObufBlind (takeTrailer w) := withSeq fun _ _ _ => rfl

/-- `dec_header` is blind to OBUF for a word that does not depend on it. -/
theorem decHeaderWord (w : BitVec 32) : ObufBlind (decHeaderWord w) := by
  intro s m
  rw [decHeaderWord_eq, decHeaderWord_eq]
  split
  · exact takeHeader _ _ _ _ _ _ _ s m
  · exact rejectType _ s m

theorem readHeader : ObufBlind readHeader := reader fun _ s m => decHeaderWord _ s m

theorem readStreamId : ObufBlind readStreamId := reader fun _ s m => takeStreamId _ s m

theorem readClassId : ObufBlind readClassId := reader fun _ s m => takeClassId _ _ _ s m

theorem readTsi : ObufBlind readTsi := reader fun _ s m => takeTsi _ s m

theorem readTsf : ObufBlind readTsf := reader fun _ s m => takeTsf _ s m

theorem readTrailer : ObufBlind readTrailer := reader fun _ s m => takeTrailer _ s m

theorem checkTotal : ObufBlind checkTotal := raiseIf (fun _ _ _ => rfl) fun _ _ _ => rfl

theorem checkOverhead : ObufBlind checkOverhead := raiseIf (fun _ _ _ => rfl) fun _ _ _ => rfl

theorem initRem : ObufBlind initRem := withSeq fun _ _ _ => rfl

theorem takePayload : ObufBlind takePayload := withSeq fun _ _ _ => rfl

theorem commitPacket : ObufBlind commitPacket := withSeq fun _ _ _ => rfl

theorem finishPacket : ObufBlind finishPacket := withSeq fun _ => withSeq fun _ _ _ => rfl

theorem decPkt : ObufBlind decPkt :=
  finishPacket.comp <| commitPacket.comp <| (ifSel readTrailer).comp <| takePayload.comp <| (ifSel readTsf).comp <|
    (ifSel readTsi).comp <| (ifSel readClassId).comp <| (ifSel readStreamId).comp <| initRem.comp <|
    checkOverhead.comp <| checkTotal.comp <| readHeader.comp fun _ _ => rfl

theorem finishDecode (x : Nat) : ObufBlind (finishDecode x) := withSeq fun _ _ _ => rfl

theorem decHdr : ObufBlind decHdr := (finishDecode 4).comp <| comp (withSeq fun _ _ _ => rfl) <| readHeader.comp fun _ _ => rfl

theorem decCid : ObufBlind decCid := (finishDecode 8).comp <| comp (withSeq fun _ _ _ => rfl) <| readClassId.comp fun _ _ => rfl

theorem decTrl : ObufBlind decTrl := (finishDecode 4).comp <| comp (withSeq fun _ _ _ => rfl) <| readTrailer.comp fun _ _ => rfl

end ObufBlind

/-- The meaning of a wire row is one stage of the field sequencer (30_encoding.md R111), and it is blind to OBUF. -/
theorem exec_wireRow {i : Instr} (h : i.position ≠ .command) :
    ∃ k : Seq → State → State, (∀ q, ObufBlind (k q)) ∧ ∀ s, exec i s = .next (withSeq k s) := by
  cases i with
  | hdrData | hdrDataSid | hdrExtData | hdrExtDataSid | hdrContext | hdrExtContext | hdrIllegal67 | hdrIllegal815
  | streamId | classId | tsiValue | tsfValue | trailer => exact ⟨_, fun _ _ _ => rfl, fun _ => rfl⟩
  | _ => exact absurd rfl h

/-- Every instruction but an encode command is blind to OBUF. -/
theorem exec_obufBlind {i : Instr} (henc : isEncode i = false) : ∃ k, ObufBlind k ∧ ∀ s, exec i s = .next (k s) := by
  by_cases hcmd : i.position = .command
  · cases i with
    | nop => exact ⟨_, fun _ _ => rfl, fun _ => rfl⟩
    | decHdr => exact ⟨_, .decHdr, fun _ => rfl⟩
    | decCid => exact ⟨_, .decCid, fun _ => rfl⟩
    | decTrl => exact ⟨_, .decTrl, fun _ => rfl⟩
    | decPkt => exact ⟨_, .decPkt, fun _ => rfl⟩
    | reserved9 | reservedA | reservedB | reservedC | reservedD | reservedE | reservedF =>
      exact ⟨_, fun _ _ => rfl, fun _ => rfl⟩
    | encHdr | encCid | encTrl | encPkt => cases henc
    | _ => cases hcmd
  · obtain ⟨k, hblind, hk⟩ := exec_wireRow hcmd
    exact ⟨_, .withSeq hblind, hk⟩

theorem exec_encode_ends {i : Instr} (henc : isEncode i = true) (s : State) :
    ∃ k, EncodeEnd s (commandCode i) k ∧ ∀ u, exec i u = .next (k u) := by
  cases i with
  | encHdr => exact ⟨_, encHdr_ends s, fun _ => rfl⟩
  | encCid => exact ⟨_, encCid_ends s, fun _ => rfl⟩
  | encTrl => exact ⟨_, encTrl_ends s, fun _ => rfl⟩
  | encPkt => exact ⟨_, encPkt_ends s, fun _ => rfl⟩
  | _ => cases henc

/-- The same bytes written over any memory are read back below their end. -/
theorem byte_writeBytes_zero_of_lt (b : BufId) (m m' : Memory) {bs : List Byte} {a : Nat} (ha : a < bs.length) :
    (m.writeBytes 0 bs).byte b a = (m'.writeBytes 0 bs).byte b a := by
  simp [byte_writeBytes, ha]

/-! ## PRESENT -/

theorem selS_iff (p : Packet) : selS p = true ↔ p.pktType = 1#4 ∨ p.pktType = 3#4 := by
  simp [selS, carriesStreamId]

theorem selC_iff (p : Packet) : selC p = true ↔ p.cidPresent = 1#1 := by simp [selC]

theorem selI_iff (p : Packet) : selI p = true ↔ p.tsiKind ≠ 0#2 := by simp [selI]

theorem selF_iff (p : Packet) : selF p = true ↔ p.tsfKind ≠ 0#2 := by simp [selF]

theorem selT_iff (p : Packet) : selT p = true ↔ p.trlPresent = 1#1 := by simp [selT]

/-- The five bits of PRESENT, from bit 0 up (10_state.md R26). -/
theorem present_bits (p : Packet) :
    [0, 1, 2, 3, 4].map (present p).getLsbD = [selS p, selC p, selI p, selF p, selT p] := by
  unfold present
  generalize selS p = bs, selC p = bc, selI p = bi, selF p = bf, selT p = bt
  revert bs bc bi bf bt
  decide

end Sys2Proof.Machine
end

section
/-! PROOFS. The statements of 10_state.md settled. -/

namespace Sys2Proof.Machine

/-- Settles O49: a command keeps the invariant however it ends, and every other transaction writes values of their width. -/
theorem everyStepKeepsTheInvariant : Obligations.EveryStepKeepsTheInvariant := by
  intro s t hs hstep
  obtain ⟨-, rfl⟩ | ⟨x, rest, -, hx⟩ := step_cases hstep
  · exact hs
  · exact hx.keepsInv hs

/-- Settles O31: a command sets DONE, and of the other transactions only the two resets write STATUS. -/
theorem doneIsStickyUntilReset : Obligations.DoneIsStickyUntilReset := by
  intro s t hdone hstep hreset hcut
  obtain ⟨-, rfl⟩ | ⟨x, rest, hhost, hx⟩ := step_cases hstep
  · exact hdone
  cases hx with
  | command v _ h =>
    obtain rfl | ⟨op, hend⟩ := exec_decodeCommand_cases h
    · exact hdone
    · exact hend.done
  | register index v r => rwa [writeReg_status]
  | reset => exact absurd hhost (hreset rest)
  | resetDuring v => exact absurd hhost (hcut v rest)
  | unmapped | readReg | writeIbuf | writeObuf | readIbuf | readObuf => exact hdone

/-- Settles O36: an encode command's outcome is settled by the rest of the state, every other instruction is blind to OBUF. -/
theorem noInstructionReadsObuf : Obligations.NoInstructionReadsObuf := by
  intro i s t m hexec
  cases henc : isEncode i with
  | false =>
    obtain ⟨k, hblind, hk⟩ := exec_obufBlind henc
    rw [hk s] at hexec
    cases hexec
    exact ⟨m, (hk _).trans (congrArg _ (hblind s m)), fun h => nomatch h⟩
  | true =>
    obtain ⟨k, hend, hk⟩ := exec_encode_ends henc s
    rw [hk s] at hexec
    cases hexec
    cases hend with
    | failed e he h =>
      have hs : k s = fail (commandCode i) e s := h s.obuf
      refine ⟨m, ?_, fun _ hok => ?_⟩
      · rw [hk, h m, hs]
        rfl
      · rw [hs, fail_status, statusOk_packStatus] at hok
        cases hok
    | wrote bs hroom h =>
      have hs : k s = succeed (commandCode i) bs.length 0 { s with obuf := s.obuf.writeBytes 0 bs } := h s.obuf
      refine ⟨m.writeBytes 0 bs, ?_, fun _ _ a ha => ?_⟩
      · rw [hk, h m, hs]
        rfl
      · rw [hs] at ha ⊢
        exact byte_writeBytes_zero_of_lt .obuf m s.obuf ha

/-- Settles O25: a wire row is a stage, and a stage with no command in progress changes nothing. -/
theorem wireRowsOutsideACommandChangeNothing : Obligations.WireRowsOutsideACommandChangeNothing := by
  intro i s hwire hseq
  obtain ⟨k, -, hk⟩ := exec_wireRow hwire
  rw [hk s, withSeq_none k hseq]

/-- Settles O33, by the closed form of each command. -/
theorem singleFieldDecodesWriteTheirOwnRegisters : Obligations.SingleFieldDecodesWriteTheirOwnRegisters := by
  intro s t
  refine ⟨fun h => ?_, fun h => ?_, fun h => ?_⟩
  · obtain rfl : decHdr s = t := Host.Outcome.next.inj h
    rw [decHdr_eq]
    split
    · rfl
    · split <;> rfl
  · obtain rfl : decCid s = t := Host.Outcome.next.inj h
    rw [decCid_eq]
    split <;> rfl
  · obtain rfl : decTrl s = t := Host.Outcome.next.inj h
    rw [decTrl_eq]
    split <;> rfl

/-- Settles O39: the range test of a byte access fails for the write and for the read alike. -/
theorem accessBeyondTheBufferFaults : Obligations.AccessBeyondTheBufferFaults := by
  intro s b a v rest ha hhost
  have hbeyond : ¬ a < 2 ^ s.lenW := Nat.not_lt.mpr ha
  obtain h | h := hhost
  · exact (step_cons h).trans (if_neg hbeyond)
  · exact (step_cons h).trans (if_neg hbeyond)

/-- Settles O40: each index selects its register, whose write is the clause's update. -/
theorem hostWriteStoresTheTruncatedValue : Obligations.HostWriteStoresTheTruncatedValue := by
  intro s v rest index h
  refine ⟨?_, ?_, ?_, ?_, ?_, ?_, ?_, ?_, ?_, ?_, ?_, ?_, ?_, ?_, ?_, ?_, ?_⟩ <;>
  · rintro rfl
    have hstep := step_writeReg h rfl (by decide)
    exact hstep

/-- Settles O41: the write of PKT_TYPE splits on the legality of its code (R23). -/
theorem pktTypeIsWriteAnyReadLegal : Obligations.PktTypeIsWriteAnyReadLegal := by
  intro s v rest h
  rw [step_writeReg (r := .pktType) h rfl (by decide), writeReg, writePktType]
  split <;> rfl

/-- Settles O42: the five read-only registers ignore the write, and no other index named selects a register. -/
theorem readOnlyAndUnmappedWritesAreIgnored : Obligations.ReadOnlyAndUnmappedWritesAreIgnored := by
  intro s index v rest h hindex
  obtain rfl | rfl | rfl | rfl | rfl | hunmapped := hindex
  · exact step_writeReg (r := .status) h rfl (by decide)
  · exact step_writeReg (r := .errInfo) h rfl (by decide)
  · exact step_writeReg (r := .xferLen) h rfl (by decide)
  · exact step_writeReg (r := .remLen) h rfl (by decide)
  · exact step_writeReg (r := .present) h rfl (by decide)
  · exact (step_cons h).trans (hostWrite_unmapped (regOfIndex_unmapped hunmapped) v _)

/-- Settles O44: each bit is one select, each select one condition on the header registers. -/
theorem presentIsTheHeaderSelects : Obligations.PresentIsTheHeaderSelects := by
  intro p
  have hbits := present_bits p
  simp only [List.map_cons, List.map_nil, List.cons.injEq, and_true] at hbits
  obtain ⟨h0, h1, h2, h3, h4⟩ := hbits
  rw [h0, h1, h2, h3, h4]
  exact ⟨selS_iff p, selC_iff p, selI_iff p, selF_iff p, selT_iff p⟩

end Sys2Proof.Machine
end


section
/-! PROOFS. The wire rows as stages of the field sequencer, and the readers as the rows their bytes decode to (20_memory.md R81). -/

namespace Sys2Proof.Machine

/-! ## The wire rows -/

/-- A wire row changes the command in progress only, or raises an error (30_encoding.md R111, R114). -/
theorem exec_wireRow_cases {i : Instr} (h : i.position ≠ .command) :
    (∃ f : Seq → Seq, ∀ s, exec i s = .next (withSeq (fun q => setSeq (f q)) s)) ∨
    ∃ e : CmdError, ∀ s, exec i s = .next (raise e s) := by
  cases i with
  | hdrData | hdrDataSid | hdrExtData | hdrExtDataSid | hdrContext | hdrExtContext | streamId | classId | tsiValue
  | tsfValue | trailer => exact .inl ⟨_, fun _ => rfl⟩
  | hdrIllegal67 | hdrIllegal815 => exact .inr ⟨_, fun _ => rfl⟩
  | _ => exact absurd rfl h

theorem decodeNumber_position (p : Position) (v : Nat) : (decodeNumber p v).position = p := by
  cases p with
  | command => exact decodeCommand_position v
  | header =>
    simp only [decodeNumber, decodeHeader]
    split <;> rfl
  | _ => rfl

theorem position_size_pos (p : Position) : 0 < p.size := by cases p <;> decide

/-- Bytes of a position's width decode to the instruction of their number. -/
theorem decode_inBytes {p : Position} {s : State} {a : Nat} {i : Instr} {rest : List Byte}
    (h : decode p (inBytes s a p.size) = .ok (i, rest)) : i = decodeNumber p (memRead s a p.size) := by
  rw [decode, if_neg (by simp), List.take_of_length_le (by simp)] at h
  cases h
  rfl

/-! ## The readers -/

/-- `dec_header` on a word does what the word's row does: one of six legal types, or an illegal one (30_encoding.md R102). -/
theorem exec_decodeHeader (w : BitVec 32) (s : State) : exec (decodeHeader w) s = .next (decHeaderWord w s) := by
  have hlegal {n : Nat} (h : (hdrType w).toNat = n) (hn : n ≤ 5) :
      decHeaderWord w s = takeHeader (BitVec.ofNat 4 n) (hdrClassId w) (hdrTrailer w) (hdrTsi w) (hdrTsf w) (hdrCount w)
        (hdrSize w) s := by
    rw [decHeaderWord_eq, if_pos (by omega), ← h, BitVec.ofNat_toNat, BitVec.setWidth_eq]
  have hillegal (h : 5 < (hdrType w).toNat) : decHeaderWord w s = rejectType (hdrType w).toNat s := by
    rw [decHeaderWord_eq, if_neg (by omega)]
  unfold decodeHeader
  split
  case h_1 h | h_2 h | h_3 h | h_4 h | h_5 h | h_6 h => rw [hlegal h (by decide)]; rfl
  case h_7 h | h_8 h => rw [hillegal (by omega)]; rfl
  case h_9 => rw [hillegal (by grind)]; rfl

/-- The 64-bit quantity of a class identifier is its three fields in order (30_encoding.md R106). -/
theorem decodeClassId_longAt (s : State) (a : Nat) :
    decodeClassId (longAt s a) = .classId (wordAt s a) (halfAt s (a + 4)) (halfAt s (a + 6)) := by
  have hlow : wordAt s (a + 4) = halfAt s (a + 4) ++ halfAt s (a + 6) := by
    apply BitVec.eq_of_toNat_eq
    rw [toNat_wordAt, toNat_append_mul, toNat_halfAt, toNat_halfAt, memRead_four, memRead_two, memRead_two]
    simp only [Nat.add_assoc, Nat.reduceAdd]
    omega
  simp only [decodeClassId, longAt, hlow, Instr.classId.injEq]
  refine ⟨?_, ?_, ?_⟩ <;>
  · apply BitVec.eq_of_getLsbD_eq
    intro i hi
    simp only [BitVec.getLsbD_extractLsb', BitVec.getLsbD_append]
    interval_cases i <;> simp

/-- The reader of a position: it wants the position's bytes at the cursor, inside the view (20_memory.md R75), and does what the row they
decode to does (R81). -/
structure ReadsRow (p : Position) (read : State → State) : Prop where
  idle : ∀ s, s.seq = none → read s = s
  short : ∀ s q, s.seq = some q → s.inLen - q.cur < p.size →
    read s = fail q.op (insufficientInput (p.size - (s.inLen - q.cur))) s
  row : ∀ s q, s.seq = some q → p.size ≤ s.inLen - q.cur →
    exec (decodeNumber p (memRead s q.cur p.size)) s = .next (read s)

/-- A reader in the form of its `_some` lemma. -/
theorem ReadsRow.of_some {p : Position} {read : State → State} {take : Seq → State → State}
    (hidle : ∀ s, s.seq = none → read s = s)
    (hsome : ∀ s q, s.seq = some q → read s =
      if s.inLen - q.cur < p.size then fail q.op (insufficientInput (p.size - (s.inLen - q.cur))) s else take q s)
    (hrow : ∀ s q, exec (decodeNumber p (memRead s q.cur p.size)) s = .next (take q s)) : ReadsRow p read where
  idle := hidle
  short s q hseq hshort := by rw [hsome s q hseq, if_pos hshort]
  row s q hseq hin := by rw [hsome s q hseq, if_neg (Nat.not_lt.mpr hin), hrow]

theorem readHeader_readsRow : ReadsRow .header readHeader :=
  .of_some (fun _ => readHeader_none) (fun _ _ => readHeader_some) fun s _ => exec_decodeHeader _ s

theorem readStreamId_readsRow : ReadsRow .streamId readStreamId :=
  .of_some (fun _ => readStreamId_none) (fun _ _ => readStreamId_some) fun _ _ => rfl

theorem readClassId_readsRow : ReadsRow .classId readClassId :=
  .of_some (fun _ => readClassId_none) (fun _ _ => readClassId_some) fun s q => by
    simp only [decodeNumber, Position.size, ofNat_memRead_eight, decodeClassId_longAt, ofNat_memRead_four, ofNat_memRead_two]
    rfl

theorem readTsi_readsRow : ReadsRow .tsiValue readTsi :=
  .of_some (fun _ => readTsi_none) (fun _ _ => readTsi_some) fun _ _ => rfl

theorem readTsf_readsRow : ReadsRow .tsfValue readTsf :=
  .of_some (fun _ => readTsf_none) (fun _ _ => readTsf_some) fun _ _ => rfl

theorem readTrailer_readsRow : ReadsRow .trailer readTrailer :=
  .of_some (fun _ => readTrailer_none) (fun _ _ => readTrailer_some) fun s q => by
    rw [decodeNumber, exec, execTrailer, trailerWord_trailerFields]
    rfl

/-- A reader whose field lies inside the view does what the instruction its bytes decode to does. -/
theorem ReadsRow.exec_decode {p : Position} {read : State → State} (hread : ReadsRow p read) {s : State} {q : Seq} {i : Instr}
    {rest : List Byte} (hseq : s.seq = some q) (hin : q.cur + p.size ≤ s.inLen)
    (hdec : decode p (inBytes s q.cur p.size) = .ok (i, rest)) : exec i s = .next (read s) := by
  rw [decode_inBytes hdec]
  exact hread.row s q hseq (by omega)

end Sys2Proof.Machine
end

section
/-! PROOFS. IBUF is read inside the input view only (20_memory.md R75), and no instruction changes what the host gave it to read. -/

namespace Sys2Proof.Machine

/-! ## What every instruction leaves alone -/

/-- The input side of the block and the model's own fields are as before. -/
structure KeepsInput (s t : State) : Prop where
  ibuf : t.ibuf = s.ibuf := by rfl
  inLen : t.inLen = s.inLen := by rfl
  outCap : t.outCap = s.outCap := by rfl
  lenW : t.lenW = s.lenW := by rfl
  host : t.host = s.host := by rfl
  rdata : t.rdata = s.rdata := by rfl

theorem KeepsInput.trans {s t u : State} (h : KeepsInput s t) (h' : KeepsInput t u) : KeepsInput s u :=
  ⟨h'.ibuf.trans h.ibuf, h'.inLen.trans h.inLen, h'.outCap.trans h.outCap, h'.lenW.trans h.lenW, h'.host.trans h.host,
    h'.rdata.trans h.rdata⟩

/-- A command's end writes the status group, the packet registers and OBUF only. -/
theorem CommandEnd.keepsInput {s t : State} {op : BitVec 4} (h : CommandEnd s op t) : KeepsInput s t := by
  cases h <;> exact {}

/-! ## Another IBUF with the same view -/

/-- The same state over another IBUF. -/
def State.withIbuf (s : State) (m : Memory) : State := { s with ibuf := m }

theorem withIbuf_pkt (s : State) (m : Memory) : (s.withIbuf m).pkt = s.pkt := rfl
theorem withIbuf_inLen (s : State) (m : Memory) : (s.withIbuf m).inLen = s.inLen := rfl
theorem withIbuf_outCap (s : State) (m : Memory) : (s.withIbuf m).outCap = s.outCap := rfl

/-- The memory holds the bytes of the input view, IBUF[0 .. IN_LEN). -/
def State.SameView (s : State) (m : Memory) : Prop := ∀ a, a < s.inLen → m.byte .ibuf a = s.inByte a

theorem KeepsInput.sameView {s t : State} {m : Memory} (h : KeepsInput s t) (hm : s.SameView m) : t.SameView m := by
  intro a ha
  rw [State.inByte, h.ibuf]
  exact hm a (h.inLen ▸ ha)

theorem inBytes_withIbuf {s : State} {m : Memory} (hm : s.SameView m) {a n : Nat} (hin : a + n ≤ s.inLen) :
    inBytes (s.withIbuf m) a n = inBytes s a n :=
  inBytes_congr _ _ a n fun k hk => hm (a + k) (by omega)

/-- A stage that looks at no byte of IBUF outside the input view: it keeps the input, and over another IBUF with the same view it does
the same. -/
structure ViewOnly (k : State → State) : Prop where
  keeps : ∀ s, KeepsInput s (k s)
  same : ∀ s m, s.SameView m → k (s.withIbuf m) = (k s).withIbuf m

namespace ViewOnly

variable {f g : State → State}

theorem comp (hg : ViewOnly g) (hf : ViewOnly f) : ViewOnly fun s => g (f s) where
  keeps s := (hf.keeps s).trans (hg.keeps (f s))
  same s m hm := (congrArg g (hf.same s m hm)).trans (hg.same (f s) m ((hf.keeps s).sameView hm))

/-- A stage that looks at no byte of IBUF at all. -/
theorem update (hkeeps : ∀ s, KeepsInput s (f s)) (h : ∀ s m, f (s.withIbuf m) = (f s).withIbuf m) : ViewOnly f :=
  ⟨hkeeps, fun s m _ => h s m⟩

theorem fail (op : BitVec 4) (e : CmdError) : ViewOnly (fail op e) := update (fun _ => {}) fun _ _ => rfl

theorem start (op : BitVec 4) : ViewOnly (start op) := update (fun _ => {}) fun _ _ => rfl

theorem id : ViewOnly fun s => s := update (fun _ => {}) fun _ _ => rfl

theorem withSeq {k : Seq → State → State} (hk : ∀ q, ViewOnly (k q)) : ViewOnly (withSeq k) where
  keeps s := by
    cases hseq : s.seq with
    | none =>
      rw [withSeq_none k hseq]
      exact {}
    | some q =>
      rw [withSeq_some k hseq]
      exact (hk q).keeps s
  same s m hm := by
    cases hseq : s.seq with
    | none =>
      have hseq' : (s.withIbuf m).seq = none := hseq
      rw [withSeq_none k hseq, withSeq_none k hseq']
    | some q =>
      have hseq' : (s.withIbuf m).seq = some q := hseq
      rw [withSeq_some k hseq, withSeq_some k hseq', (hk q).same s m hm]

theorem ite {c : State → Prop} [DecidablePred c] (hc : ∀ s m, c (s.withIbuf m) ↔ c s) (hf : ViewOnly f) (hg : ViewOnly g) :
    ViewOnly fun s => if c s then f s else g s where
  keeps s := by
    split
    · exact hf.keeps s
    · exact hg.keeps s
  same s m hm := by
    by_cases h : c s
    · simp only [if_pos h, if_pos ((hc s m).mpr h), hf.same s m hm]
    · simp only [if_neg h, if_neg (mt (hc s m).mp h), hg.same s m hm]

theorem raiseIf {bad : Seq → State → Bool} {e : Seq → State → CmdError}
    (hbad : ∀ q s m, bad q (s.withIbuf m) = bad q s) (he : ∀ q s m, e q (s.withIbuf m) = e q s) :
    ViewOnly (raiseIf bad e) :=
  withSeq fun q => ite (fun s m => by rw [hbad]) (update (fun _ => {}) fun s m => by rw [he]; rfl) id

theorem ifSel {sel : Packet → Bool} (hf : ViewOnly f) : ViewOnly (ifSel sel f) :=
  withSeq fun _ => ite (fun _ _ => Iff.rfl) hf id

end ViewOnly

/-! ## The wire rows and the readers -/

/-- A wire row looks at no byte of IBUF: it carries its operands (30_encoding.md R120). -/
theorem exec_wireRow_viewOnly {i : Instr} (h : i.position ≠ .command) : ∃ k, ViewOnly k ∧ ∀ s, exec i s = .next (k s) := by
  obtain ⟨f, hf⟩ | ⟨e, he⟩ := exec_wireRow_cases h
  · have hset (q : Seq) : ViewOnly (setSeq (f q)) := .update (fun _ => {}) fun _ _ => rfl
    exact ⟨_, .withSeq hset, hf⟩
  · have hraise : ViewOnly (raise e) := .withSeq fun q => .fail q.op e
    exact ⟨_, hraise, he⟩

/-- A reader looks at the view only: past its bounds check its field lies inside the view, and what it does then is a wire row. -/
theorem ReadsRow.viewOnly {p : Position} {read : State → State} (h : ReadsRow p read) (hp : p ≠ .command := by decide) :
    ViewOnly read := by
  suffices hpoint : ∀ s, KeepsInput s (read s) ∧ ∀ m, s.SameView m → read (s.withIbuf m) = (read s).withIbuf m from
    ⟨fun s => (hpoint s).1, fun s => (hpoint s).2⟩
  intro s
  cases hseq : s.seq with
  | none =>
    rw [h.idle s hseq]
    exact ⟨{}, fun m _ => h.idle _ hseq⟩
  | some q =>
    by_cases hin : p.size ≤ s.inLen - q.cur
    · obtain ⟨k, hview, hk⟩ := exec_wireRow_viewOnly (i := decodeNumber p (memRead s q.cur p.size))
        (by rwa [decodeNumber_position])
      have hread : read s = k s := Host.Outcome.next.inj ((h.row s q hseq hin).symm.trans (hk s))
      rw [hread]
      refine ⟨hview.keeps s, fun m hm => ?_⟩
      have hmem : memRead (s.withIbuf m) q.cur p.size = memRead s q.cur p.size :=
        congrArg beNat (inBytes_withIbuf hm (by have := position_size_pos p; omega))
      have hrow := h.row (s.withIbuf m) q hseq hin
      rw [hmem, hk] at hrow
      exact (Host.Outcome.next.inj hrow).symm.trans (hview.same s m hm)
    · have hshort := Nat.lt_of_not_le hin
      rw [h.short s q hseq hshort]
      exact ⟨{}, fun m _ => h.short _ q hseq hshort⟩

/-! ## The commands -/

/-- The packet ENC_PKT emits is settled by the view, where its payload lies inside it. -/
theorem wirePacket_withIbuf {s : State} {m : Memory} (hm : s.SameView m) (hin : s.pkt.payOff + s.pkt.payLen ≤ s.inLen)
    (n : Nat) : wirePacket (s.withIbuf m) n = wirePacket s n := by
  have hpayload := inBytes_withIbuf hm hin
  rw [inBytes, inBytes] at hpayload
  rw [wirePacket, wirePacket, withIbuf_pkt, hpayload]

namespace ViewOnly

theorem finishDecode (x : Nat) : ViewOnly (finishDecode x) := withSeq fun _ => update (fun _ => {}) fun _ _ => rfl

theorem decHdr : ViewOnly decHdr :=
  have hcommit : ViewOnly commitHeader := withSeq fun _ => update (fun _ => {}) fun _ _ => rfl
  (finishDecode 4).comp <| hcommit.comp <| readHeader_readsRow.viewOnly.comp (start 1#4)

theorem decCid : ViewOnly decCid :=
  have hcommit : ViewOnly commitClassId := withSeq fun _ => update (fun _ => {}) fun _ _ => rfl
  (finishDecode 8).comp <| hcommit.comp <| readClassId_readsRow.viewOnly.comp (start 3#4)

theorem decTrl : ViewOnly decTrl :=
  have hcommit : ViewOnly commitTrailer := withSeq fun _ => update (fun _ => {}) fun _ _ => rfl
  (finishDecode 4).comp <| hcommit.comp <| readTrailer_readsRow.viewOnly.comp (start 5#4)

theorem decPkt : ViewOnly decPkt :=
  have htotal : ViewOnly checkTotal := raiseIf (fun _ _ _ => rfl) fun _ _ _ => rfl
  have hoverhead : ViewOnly checkOverhead := raiseIf (fun _ _ _ => rfl) fun _ _ _ => rfl
  have hinit : ViewOnly initRem := withSeq fun _ => update (fun _ => {}) fun _ _ => rfl
  have hpayload : ViewOnly takePayload := withSeq fun _ => update (fun _ => {}) fun _ _ => rfl
  have hcommit : ViewOnly commitPacket := withSeq fun _ => update (fun _ => {}) fun _ _ => rfl
  have hfinish : ViewOnly finishPacket := withSeq fun q => finishDecode (declaredBytes q)
  hfinish.comp <| hcommit.comp <| (ifSel readTrailer_readsRow.viewOnly).comp <| hpayload.comp <|
    (ifSel readTsf_readsRow.viewOnly).comp <| (ifSel readTsi_readsRow.viewOnly).comp <|
    (ifSel readClassId_readsRow.viewOnly).comp <| (ifSel readStreamId_readsRow.viewOnly).comp <|
    hinit.comp <| hoverhead.comp <| htotal.comp <| readHeader_readsRow.viewOnly.comp (start 7#4)

/-- The single-field encodes read registers only. -/
theorem encodeField (op : BitVec 4) (n : Nat) (bytes : Packet → List Byte) :
    ViewOnly fun s => finishEncode n (emit (fun s => bytes s.pkt) (needRoom n (Machine.start op s))) :=
  have hroom : ViewOnly (needRoom n) := raiseIf (fun _ _ _ => rfl) fun _ _ _ => rfl
  have hemit : ViewOnly (emit fun s => bytes s.pkt) := withSeq fun _ => update (fun _ => {}) fun _ _ => rfl
  have hfinish : ViewOnly (finishEncode n) := withSeq fun _ => update (fun _ => {}) fun _ _ => rfl
  hfinish.comp <| hemit.comp <| hroom.comp (start op)

theorem encHdr : ViewOnly encHdr := encodeField 2#4 4 fun p => headerBytes p p.pktSize

theorem encCid : ViewOnly encCid := encodeField 4#4 8 classIdBytes

theorem encTrl : ViewOnly encTrl := encodeField 6#4 4 fun p => beBytes 4 p.trailer.toNat

/-- ENC_PKT reads the payload after the test that its view lies inside the input view (45_packet_assembler.md R216, R222). -/
theorem encPkt : ViewOnly encPkt where
  keeps s := (encPkt_ends s).commandEnd.keepsInput
  same s m hm := by
    rw [encPkt_eq s, encPkt_eq (s.withIbuf m), withIbuf_pkt, withIbuf_inLen, withIbuf_outCap]
    by_cases hview : s.inLen < s.pkt.payOff + s.pkt.payLen
    · simp only [if_pos hview]
      split_ifs <;> rfl
    · rw [wirePacket_withIbuf hm (Nat.le_of_not_lt hview)]
      split_ifs <;> rfl

end ViewOnly

/-- No instruction looks at a byte of IBUF outside the input view. -/
theorem exec_viewOnly (i : Instr) : ∃ k, ViewOnly k ∧ ∀ s, exec i s = .next (k s) := by
  by_cases hcmd : i.position = .command
  · cases i with
    | nop => exact ⟨_, .id, fun _ => rfl⟩
    | decHdr => exact ⟨_, .decHdr, fun _ => rfl⟩
    | encHdr => exact ⟨_, .encHdr, fun _ => rfl⟩
    | decCid => exact ⟨_, .decCid, fun _ => rfl⟩
    | encCid => exact ⟨_, .encCid, fun _ => rfl⟩
    | decTrl => exact ⟨_, .decTrl, fun _ => rfl⟩
    | encTrl => exact ⟨_, .encTrl, fun _ => rfl⟩
    | decPkt => exact ⟨_, .decPkt, fun _ => rfl⟩
    | encPkt => exact ⟨_, .encPkt, fun _ => rfl⟩
    | reserved9 | reservedA | reservedB | reservedC | reservedD | reservedE | reservedF =>
      exact ⟨_, .fail _ _, fun _ => rfl⟩
    | _ => cases hcmd
  · exact exec_wireRow_viewOnly hcmd

/-! ## Which instructions write OBUF and the packet registers -/

theorem ObufBlind.keeps_obuf {k : State → State} (h : ObufBlind k) (s : State) : (k s).obuf = s.obuf := by
  have hsame : k s = (k s).withObuf s.obuf := h s s.obuf
  rw [hsame]
  rfl

/-- Only an encode command writes OBUF (10_state.md R37). -/
theorem exec_keeps_obuf {i : Instr} {s t : State} (henc : isEncode i = false) (h : exec i s = .next t) : t.obuf = s.obuf := by
  obtain ⟨k, hblind, hk⟩ := exec_obufBlind henc
  obtain rfl : k s = t := Host.Outcome.next.inj ((hk s).symm.trans h)
  exact hblind.keeps_obuf s

theorem withSeq_keeps_pkt {k : Seq → State → State} (hk : ∀ q s, (k q s).pkt = s.pkt) (s : State) :
    (withSeq k s).pkt = s.pkt := by
  cases hseq : s.seq with
  | none => rw [withSeq_none k hseq]
  | some q => rw [withSeq_some k hseq, hk]

/-- An encode command fails and writes nothing, or writes bytes from OBUF address 0 upward. -/
theorem exec_encode_cases {i : Instr} {s t : State} (henc : isEncode i = true) (h : exec i s = .next t) :
    (∃ e, t = fail (commandCode i) e s) ∨
    ∃ bs : List Byte, bs.length ≤ s.outCap ∧
      t = succeed (commandCode i) bs.length 0 { s with obuf := s.obuf.writeBytes 0 bs } := by
  obtain ⟨k, hend, hk⟩ := exec_encode_ends henc s
  obtain rfl : k s = t := Host.Outcome.next.inj ((hk s).symm.trans h)
  cases hend with
  | failed e he hfail => exact .inl ⟨e, hfail s.obuf⟩
  | wrote bs hroom hwrote => exact .inr ⟨bs, hroom, hwrote s.obuf⟩

/-- Only a decode command writes the packet registers (10_state.md R40). -/
theorem exec_keeps_pkt {i : Instr} {s t : State} (hdec : isDecode i = false) (h : exec i s = .next t) : t.pkt = s.pkt := by
  cases henc : isEncode i with
  | true => obtain ⟨e, rfl⟩ | ⟨bs, -, rfl⟩ := exec_encode_cases henc h <;> rfl
  | false =>
    by_cases hcmd : i.position = .command
    · cases i with
      | nop | reserved9 | reservedA | reservedB | reservedC | reservedD | reservedE | reservedF => cases h; rfl
      | decHdr | decCid | decTrl | decPkt => cases hdec
      | encHdr | encCid | encTrl | encPkt => cases henc
      | _ => cases hcmd
    · obtain ⟨f, hf⟩ | ⟨e, he⟩ := exec_wireRow_cases hcmd
      · obtain rfl := Host.Outcome.next.inj ((hf s).symm.trans h)
        exact withSeq_keeps_pkt (k := fun q => setSeq (f q)) (fun _ _ => rfl) s
      · obtain rfl := Host.Outcome.next.inj ((he s).symm.trans h)
        exact withSeq_keeps_pkt (k := fun q => fail q.op e) (fun _ _ => rfl) s

end Sys2Proof.Machine
end

section
/-! PROOFS. The statements of 20_memory.md settled. -/

namespace Sys2Proof.Machine

/-- Settles O26: each reader is the reader of its position, past its bounds check. -/
theorem readersRunTheDecodedRow : Obligations.ReadersRunTheDecodedRow := by
  intro s q i rest hseq
  exact ⟨readHeader_readsRow.exec_decode hseq, readStreamId_readsRow.exec_decode hseq, readClassId_readsRow.exec_decode hseq,
    readTsi_readsRow.exec_decode hseq, readTsf_readsRow.exec_decode hseq, readTrailer_readsRow.exec_decode hseq⟩

/-- Settles O32: every instruction is a stage that keeps the input, blind to OBUF unless it encodes. -/
theorem instructionsLeaveTheInputAlone : Obligations.InstructionsLeaveTheInputAlone := by
  intro i s t hexec
  obtain ⟨k, hview, hk⟩ := exec_viewOnly i
  obtain rfl : k s = t := Host.Outcome.next.inj ((hk s).symm.trans hexec)
  have ⟨hibuf, hinLen, houtCap, hlenW, hhost, hrdata⟩ := hview.keeps s
  exact ⟨hibuf, hinLen, houtCap, hlenW, hhost, hrdata, fun henc => exec_keeps_obuf henc hexec,
    fun hdec => exec_keeps_pkt hdec hexec⟩

/-- Settles O34: the bytes an encode command writes stand below XFER_LEN, which is their number. -/
theorem encodeWritesOnlyItsBytes : Obligations.EncodeWritesOnlyItsBytes := by
  intro i s t henc hexec
  obtain ⟨e, rfl⟩ | ⟨bs, hroom, rfl⟩ := exec_encode_cases henc hexec
  · exact ⟨fun hok => by simp at hok, fun _ _ => rfl⟩
  · refine ⟨fun _ => ⟨hroom, fun a ha => ?_⟩, fun hfail => by simp at hfail⟩
    rw [succeed_xferLen] at ha
    simp [State.outByte, byte_writeBytes, ha]

/-- Settles O35: every instruction looks at the input view only. -/
theorem bytesAboveInLenNeverMatter : Obligations.BytesAboveInLenNeverMatter := by
  intro i s t m hm hexec
  obtain ⟨k, hview, hk⟩ := exec_viewOnly i
  obtain rfl : k s = t := Host.Outcome.next.inj ((hk s).symm.trans hexec)
  exact (hk _).trans (congrArg _ (hview.same s m hm))

/-- Settles O37: the step writes one cell of the named buffer, and a cell reads back the last byte written to it. -/
theorem hostByteWriteStoresOneByte : Obligations.HostByteWriteStoresOneByte := by
  intro s a v rest ha
  refine ⟨fun h => ⟨s.ibuf.write a v, ?_, fun x => byte_write .ibuf s.ibuf a x v⟩,
    fun h => ⟨s.obuf.write a v, ?_, fun x => byte_write .obuf s.obuf a x v⟩⟩
  · exact (step_cons h).trans (if_pos ha)
  · exact (step_cons h).trans (if_pos ha)

/-- Settles O38: the address passes the range test, and the read is of that cell. -/
theorem hostByteReadReturnsTheByte : Obligations.HostByteReadReturnsTheByte := by
  intro s a rest ha
  exact ⟨fun h => (step_cons h).trans (if_pos ha), fun h => (step_cons h).trans (if_pos ha)⟩

end Sys2Proof.Machine
end

section
/-! PROOFS. The decoder is total and names well-formed instructions (30_encoding.md R114, R120), a header word's type bits choose its
row (R102), and every constructor round-trips. -/

namespace Sys2Proof

/-! ## The outcome of the decoder -/

theorem decode_of_short {p : Position} {bs : List Byte} (h : bs.length < p.size) :
    decode p bs = .error (.tooFewBytes (p.size - bs.length)) := if_pos h

theorem decode_of_enough {p : Position} {bs : List Byte} (h : p.size ≤ bs.length) :
    decode p bs = .ok (decodeNumber p (beNat (bs.take p.size)), bs.drop p.size) := if_neg h.not_gt

theorem decodeCommand_wellFormed (v : Nat) : (decodeCommand v).wellFormed = true := by
  unfold decodeCommand
  split <;> rfl

/-- The illegal rows carry the type code that selected them, so it lies in the row's range (30_encoding.md R102). -/
theorem decodeHeader_wellFormed (w : BitVec 32) : (decodeHeader w).wellFormed = true := by
  unfold decodeHeader
  split
  case h_7 h | h_8 h => simp [Instr.wellFormed, illegalCode67, BitVec.toNat_eq, h]
  case h_9 => exact decide_eq_true (by grind)
  all_goals rfl

theorem decodeNumber_wellFormed (p : Position) (v : Nat) : (decodeNumber p v).wellFormed = true := by
  cases p with
  | command => exact decodeCommand_wellFormed v
  | header => exact decodeHeader_wellFormed _
  | _ => rfl

/-! ## The row of a header word -/

/-- The row of `headerRows` that a packet-type code selects: its own up to 5, then one row for 6 and 7 and one for 8 to 15
(30_encoding.md R102). -/
def headerRowOfType (ty : BitVec 4) : Nat :=
  if ty.toNat ≤ 5 then ty.toNat else if ty.toNat ≤ 7 then 6 else 7

theorem decodeHeader_headerRow (w : BitVec 32) : (decodeHeader w).headerRow = some (headerRowOfType (hdrType w)) := by
  unfold decodeHeader headerRowOfType
  split
  case h_9 => rw [if_neg (by grind), if_neg (by grind)]; rfl
  all_goals (next h => rw [h]; rfl)

/-- A mask on the type bits alone compares the type bits alone. -/
theorem and_typeMask_eq_iff (w : BitVec 32) (v m : BitVec 4) : w &&& (m ++ 0#28) = v ++ 0#28 ↔ hdrType w &&& m = v := by
  have hsplit : hdrType w ++ w.extractLsb' 0 28 = w :=
    (BitVec.extractLsb'_append_extractLsb'_eq_extractLsb' rfl).trans BitVec.extractLsb'_eq_self
  have hand : w &&& (m ++ 0#28) = (hdrType w &&& m) ++ 0#28 := by
    conv_lhs => rw [← hsplit, BitVec.and_append, BitVec.and_zero]
  rw [hand, BitVec.append_left_inj]

/-- Each row's value and mask lie in the type bits, and the types that match are those that select the row. -/
theorem headerRows_select_types {k : Nat} {r : HeaderRow} (h : headerRows[k]? = some r) :
    ∃ v m : BitVec 4, r = ⟨v ++ 0#28, m ++ 0#28⟩ ∧ ∀ ty : BitVec 4, ty &&& m = v ↔ headerRowOfType ty = k := by
  have hrows : ∀ i : Fin headerRows.length,
      headerRows[i] = ⟨hdrType headerRows[i].value ++ 0#28, hdrType headerRows[i].mask ++ 0#28⟩ ∧
      ∀ ty : BitVec 4, ty &&& hdrType headerRows[i].mask = hdrType headerRows[i].value ↔ headerRowOfType ty = i := by
    decide
  obtain ⟨hk, rfl⟩ := List.getElem?_eq_some_iff.mp h
  exact ⟨_, _, hrows ⟨k, hk⟩⟩

/-! ## The round trip of every constructor -/

theorem Instr.roundTrips (i : Instr) : Laws.RoundTrip.Statement i := by
  cases i with
  | nop => exact Laws.RoundTrip.nop
  | decHdr => exact Laws.RoundTrip.decHdr
  | encHdr => exact Laws.RoundTrip.encHdr
  | decCid => exact Laws.RoundTrip.decCid
  | encCid => exact Laws.RoundTrip.encCid
  | decTrl => exact Laws.RoundTrip.decTrl
  | encTrl => exact Laws.RoundTrip.encTrl
  | decPkt => exact Laws.RoundTrip.decPkt
  | encPkt => exact Laws.RoundTrip.encPkt
  | reserved9 => exact Laws.RoundTrip.reserved9
  | reservedA => exact Laws.RoundTrip.reservedA
  | reservedB => exact Laws.RoundTrip.reservedB
  | reservedC => exact Laws.RoundTrip.reservedC
  | reservedD => exact Laws.RoundTrip.reservedD
  | reservedE => exact Laws.RoundTrip.reservedE
  | reservedF => exact Laws.RoundTrip.reservedF
  | hdrData c t tsi tsf cnt size => exact Laws.RoundTrip.hdrData c t tsi tsf cnt size
  | hdrDataSid c t tsi tsf cnt size => exact Laws.RoundTrip.hdrDataSid c t tsi tsf cnt size
  | hdrExtData c t tsi tsf cnt size => exact Laws.RoundTrip.hdrExtData c t tsi tsf cnt size
  | hdrExtDataSid c t tsi tsf cnt size => exact Laws.RoundTrip.hdrExtDataSid c t tsi tsf cnt size
  | hdrContext c t tsi tsf cnt size => exact Laws.RoundTrip.hdrContext c t tsi tsf cnt size
  | hdrExtContext c t tsi tsf cnt size => exact Laws.RoundTrip.hdrExtContext c t tsi tsf cnt size
  | hdrIllegal67 code => exact Laws.RoundTrip.hdrIllegal67 code
  | hdrIllegal815 code => exact Laws.RoundTrip.hdrIllegal815 code
  | streamId v => exact Laws.RoundTrip.streamId v
  | classId oui icc pcc => exact Laws.RoundTrip.classId oui icc pcc
  | tsiValue v => exact Laws.RoundTrip.tsiValue v
  | tsfValue v => exact Laws.RoundTrip.tsfValue v
  | trailer f => exact Laws.RoundTrip.trailer f

end Sys2Proof
end

section
/-! PROOFS. The statements of 30_encoding.md settled. -/

namespace Sys2Proof

/-- Settles O51: the round trip of each constructor. -/
theorem decodeReadsBackEveryEncoding : Obligations.DecodeReadsBackEveryEncoding := fun i rest hwf =>
  i.roundTrips hwf rest

/-- Settles O52: enough bytes decode to the instruction of their number, which is well formed and of its position. -/
theorem decodeIsTotalAndWellFormed : Obligations.DecodeIsTotalAndWellFormed := fun p _ =>
  ⟨decode_of_short, fun henough =>
    ⟨_, decode_of_enough henough, decodeNumber_wellFormed p _, Machine.decodeNumber_position p _⟩⟩

/-- Settles O55: the packed word reads back as f, and the fields read from a word are its bits in this order. -/
theorem trailerFieldsStandAtTheirBits : Obligations.TrailerFieldsStandAtTheirBits := by
  intro f w
  have hread : trailerFields w = f := trailerFields_trailerWord f
  clear_value w
  subst hread
  exact ⟨rfl, rfl, rfl, rfl⟩

/-- Settles O56: the row's mask compares the type bits, and by these the decoder names the row. -/
theorem everyHeaderWordHasExactlyOneRow : Obligations.EveryHeaderWordHasExactlyOneRow := by
  intro w k r hrow
  obtain ⟨v, m, rfl, hselect⟩ := headerRows_select_types hrow
  calc (w &&& (m ++ 0#28) == v ++ 0#28) = true
      ↔ hdrType w &&& m = v := beq_iff_eq.trans (and_typeMask_eq_iff w v m)
    _ ↔ headerRowOfType (hdrType w) = k := hselect _
    _ ↔ (decodeHeader w).headerRow = some k := by rw [decodeHeader_headerRow, Option.some.injEq]

/-- Settles O57: the seven words decoded. -/
theorem writtenOutWordsDecode : Obligations.WrittenOutWordsDecode :=
  ⟨rfl, rfl, rfl, rfl, rfl, rfl, rfl⟩

end Sys2Proof
end

section
/-! PROOFS. The three enumerated decoders as one kind of function (40_enum_codecs.md R140 to R147), and the end of a command at an
illegal packet type. -/

namespace Sys2Proof.Machine

/-! ## Decoders of a closed range -/

/-- `dec` knows the codes below `n`, each represented by itself, and refuses every other with `field` and the raw value; `n` codes
fit the variants' width. -/
structure DecodesRange {w : Nat} (dec : Nat → Except CmdError (BitVec w)) (n : Nat) (field : BitVec 2) : Prop where
  fits : n ≤ 2 ^ w
  outcome : ∀ c, dec c = if c < n then .ok (BitVec.ofNat w c) else .error (invalidEnumCode field c)

namespace DecodesRange

variable {w n : Nat} {dec : Nat → Except CmdError (BitVec w)} {field : BitVec 2}

theorem dec_toNat (hdec : DecodesRange dec n field) {v : BitVec w} (hv : v.toNat < n) : dec v.toNat = .ok v := by
  rw [hdec.outcome, if_pos hv, BitVec.ofNat_toNat, BitVec.setWidth_eq]

/-- A decoded code fits the width, so that nothing of it is cut. -/
theorem toNat_of_dec (hdec : DecodesRange dec n field) {c : Nat} {v : BitVec w} (hok : dec c = .ok v) : v.toNat = c := by
  rw [hdec.outcome] at hok
  split at hok
  next hc =>
    cases hok
    rw [BitVec.toNat_ofNat, Nat.mod_eq_of_lt (hc.trans_le hdec.fits)]
  next => cases hok

end DecodesRange

theorem decPacketType_decodesRange : DecodesRange decPacketType 6 fieldPacketType where
  fits := by decide
  outcome _ := if_congr Nat.lt_succ_iff.symm rfl rfl

theorem decTsiKind_decodesRange : DecodesRange decTsiKind 4 fieldTsiKind where
  fits := by decide
  outcome _ := if_congr Nat.lt_succ_iff.symm rfl rfl

theorem decTsfKind_decodesRange : DecodesRange decTsfKind 4 fieldTsfKind where
  fits := by decide
  outcome _ := if_congr Nat.lt_succ_iff.symm rfl rfl

/-! ## An illegal packet type -/

/-- STATUS after InvalidEnumCode(packet_type, _): LAST_OP stands above ERR_FIELD 1, ERR_KIND 1 and DONE (10_state.md R27). -/
theorem packStatus_packetType (op : BitVec 4) :
    packStatus false (errCode .invalidEnumCode) fieldPacketType op = 0#18 ++ op ++ 0x111#10 := by
  revert op
  decide

theorem rejectType_eq_failed {s : State} {q : Seq} (code : Nat) (hseq : s.seq = some q) :
    rejectType code s = s.failed (0#18 ++ q.op ++ 0x111#10) code := by
  rw [rejectType_some code hseq, fail_eq_failed, ← packStatus_packetType]
  rfl

end Sys2Proof.Machine
end

section
/-! PROOFS. The statements of 40_enum_codecs.md settled. -/

namespace Sys2Proof.Machine

/-- Settles O7: the three decoders decode a closed range, and an encoder gives a variant's own code. -/
theorem enumDecodersTotalOnTheirRange : Obligations.EnumDecodersTotalOnTheirRange :=
  ⟨decPacketType_decodesRange.outcome, decTsiKind_decodesRange.outcome, decTsfKind_decodesRange.outcome,
    fun _ hv => decPacketType_decodesRange.dec_toNat hv,
    fun v => ⟨decTsiKind_decodesRange.dec_toNat v.isLt, decTsfKind_decodesRange.dec_toNat v.isLt⟩,
    fun _ _ => decPacketType_decodesRange.toNat_of_dec,
    fun _ _ => ⟨decTsiKind_decodesRange.toNat_of_dec, decTsfKind_decodesRange.toNat_of_dec⟩⟩

/-- Settles O23: both rows reject the type they carry, which ends the command in progress. -/
theorem illegalHeaderRowsFailTheCommand : Obligations.IllegalHeaderRowsFailTheCommand := by
  intro s q code hseq
  have hreject := rejectType_eq_failed code.toNat hseq
  exact ⟨fun _ => congrArg Host.Outcome.next hreject, fun _ => congrArg Host.Outcome.next hreject⟩

end Sys2Proof.Machine
end

section
/-! PROOFS. The end of a command at a shortfall of input, a buffer written from address 0 read byte by byte, and the field words as the
numbers of their bytes (30_encoding.md R105 to R110). -/

namespace Sys2Proof.Machine

/-! ## A shortfall of input -/

/-- STATUS after InsufficientInput: LAST_OP stands above ERR_KIND 2 and DONE (10_state.md R27). -/
theorem packStatus_insufficientInput (op : BitVec 4) :
    packStatus false (errCode .insufficientInput) 0#2 op = 0#18 ++ op ++ 0x021#10 := by
  revert op
  decide

theorem fail_insufficientInput (op : BitVec 4) (n : Nat) (s : State) :
    fail op (insufficientInput n) s = s.failed (0#18 ++ op ++ 0x021#10) n := by
  rw [fail_eq_failed, ← packStatus_insufficientInput]
  rfl

/-! ## The bytes of an encode -/

/-- OBUF after the emission of a field at the cursor's start: the field's bytes, and above them what stood there. -/
theorem obuf_writeBytes_zero (s : State) (bs : List Byte) (a : Nat) :
    (s.obuf.writeBytes 0 bs).byte .obuf a = bs.getD a (s.outByte a) := by
  rw [byte_writeBytes, if_pos a.zero_le, Nat.sub_zero, State.outByte]

end Sys2Proof.Machine

namespace Sys2Proof

/-! ## The field words -/

/-- The three fields of a class identifier leave out no bit of its 64-bit quantity (30_encoding.md R106). -/
theorem encodeNumber_decodeClassId (w : BitVec 64) : encodeNumber (decodeClassId w) = w.toNat := by
  have hupper : w.extractLsb' 32 32 ++ w.extractLsb' 16 16 = w.extractLsb' 16 48 :=
    BitVec.extractLsb'_append_extractLsb'_eq_extractLsb' rfl
  have hall : w.extractLsb' 16 48 ++ w.extractLsb' 0 16 = w :=
    (BitVec.extractLsb'_append_extractLsb'_eq_extractLsb' rfl).trans BitVec.extractLsb'_eq_self
  rw [decodeClassId, encodeNumber, hupper, hall]

/-- At a field position every bit of the number read is kept: the width of the position is that of its word. -/
theorem encodeNumber_decodeNumber {p : Position} (hcommand : p ≠ .command) (hheader : p ≠ .header) (v : Nat) :
    encodeNumber (decodeNumber p v) = v % 256 ^ p.size := by
  cases p with
  | command => exact absurd rfl hcommand
  | header => exact absurd rfl hheader
  | streamId | tsiValue | tsfValue => exact BitVec.toNat_ofNat v _
  | classId => exact (encodeNumber_decodeClassId _).trans (BitVec.toNat_ofNat v 64)
  | trailer => exact (congrArg BitVec.toNat (trailerWord_trailerFields _)).trans (BitVec.toNat_ofNat v 32)

end Sys2Proof
end

section
/-! PROOFS. The statements of 41_class_id_codec.md settled. -/

namespace Sys2Proof.Machine

/-- Settles O10, by the closed form of DEC_CID. -/
theorem decCidDecodesTheClassIdentifier : Obligations.DecCidDecodesTheClassIdentifier := by
  intro s
  refine congrArg Host.Outcome.next ((decCid_eq s).trans ?_)
  split
  next => exact fail_insufficientInput 3#4 _ s
  next => exact succeed_eq_succeeded 3#4 8 (s.inLen - 8) _

/-- Settles O11, by the closed form of ENC_CID. -/
theorem encCidWritesTheClassIdentifier : Obligations.EncCidWritesTheClassIdentifier := by
  intro s
  refine ⟨fun hshort => ?_, fun hroom => ⟨s.obuf.writeBytes 0 (wireClassId s.pkt), ?_, obuf_writeBytes_zero s _⟩⟩
  · exact congrArg Host.Outcome.next ((encCid_eq s).trans (if_pos hshort))
  · exact congrArg Host.Outcome.next ((encCid_eq s).trans (if_neg hroom.not_gt))

/-- Settles O54: the bytes decode to the instruction of their number, and that instruction's number is theirs again. -/
theorem fieldWordsReencodeExactly : Obligations.FieldWordsReencodeExactly := by
  intro p bs rest i hcommand hheader hlength hdecode
  rw [decode_of_enough hlength.ge, List.take_of_length_le hlength.le] at hdecode
  cases hdecode
  calc encode (decodeNumber p (beNat bs))
      = beBytes p.size (encodeNumber (decodeNumber p (beNat bs))) := by rw [encode, decodeNumber_position]
    _ = beBytes p.size (beNat bs) := by rw [encodeNumber_decodeNumber hcommand hheader, beBytes_mod]
    _ = bs := by rw [← hlength, beBytes_beNat]

end Sys2Proof.Machine
end

section
/-! PROOFS. What re-encoding keeps of a header word (42_header_codec.md R161, R164, R165), and the end of a command at an illegal packet
type. -/

namespace Sys2Proof

/-! ## Re-encoding a header word -/

/-- Bit by bit: under the mask FC FF FF FF (42_header_codec.md R164) a bit is that of the field it lies in, and 0 in the reserved
pair 25:24, which lies in none (30_encoding.md R101). -/
theorem headerWord_of_fields (w : BitVec 32) :
    headerWord (hdrType w) (hdrClassId w) (hdrTrailer w) (hdrTsi w) (hdrTsf w) (hdrCount w) (hdrSize w) = w &&& 0xFCFFFFFF#32 := by
  apply BitVec.eq_of_getLsbD_eq
  intro i hi
  simp only [headerWord, hdrType, hdrClassId, hdrTrailer, hdrTsi, hdrTsf, hdrCount, hdrSize, BitVec.getLsbD_append,
    BitVec.getLsbD_extractLsb', BitVec.getLsbD_and]
  interval_cases i <;> simp

/-- A row of a legal type is encoded with that type, so with all seven fields of the word (42_header_codec.md R161). -/
theorem encodeNumber_decodeHeader {w : BitVec 32} (hlegal : (hdrType w).toNat ≤ 5) :
    encodeNumber (decodeHeader w) =
      (headerWord (hdrType w) (hdrClassId w) (hdrTrailer w) (hdrTsi w) (hdrTsf w) (hdrCount w) (hdrSize w)).toNat := by
  have htype {n : Nat} (h : (hdrType w).toNat = n) : hdrType w = BitVec.ofNat 4 n := by
    rw [← h, BitVec.ofNat_toNat, BitVec.setWidth_eq]
  unfold decodeHeader
  split
  case h_1 h | h_2 h | h_3 h | h_4 h | h_5 h | h_6 h => rw [htype h]; rfl
  case h_7 h | h_8 h => omega
  case h_9 => grind

end Sys2Proof

namespace Sys2Proof.Machine

/-! ## An illegal packet type -/

theorem fail_invalidPacketType (op : BitVec 4) (code : Nat) (s : State) :
    fail op (invalidEnumCode fieldPacketType code) s = s.failed (0#18 ++ op ++ 0x111#10) code := by
  rw [fail_eq_failed, ← packStatus_packetType]
  rfl

end Sys2Proof.Machine
end

section
/-! PROOFS. The statements of 42_header_codec.md settled. -/

namespace Sys2Proof.Machine

/-- Settles O8, by the closed form of DEC_HDR: the packet type is the word's quotient by 2^28. -/
theorem decHdrDecodesTheHeaderWord : Obligations.DecHdrDecodesTheHeaderWord := by
  intro s
  refine congrArg Host.Outcome.next ((decHdr_eq s).trans ?_)
  rw [hdrType_toNat]
  split
  next => exact fail_insufficientInput 1#4 _ s
  next =>
    by_cases hlegal : (wordAt s 0).toNat / 2 ^ 28 ≤ 5
    · rw [if_pos hlegal, if_neg hlegal.not_gt]
      exact succeed_eq_succeeded 1#4 4 (s.inLen - 4) _
    · rw [if_neg hlegal, if_pos (not_le.mp hlegal)]
      exact fail_invalidPacketType 1#4 _ s

/-- Settles O9, by the closed form of ENC_HDR. -/
theorem encHdrWritesTheHeaderBytes : Obligations.EncHdrWritesTheHeaderBytes := by
  intro s
  refine ⟨fun hshort => ?_, fun hroom => ⟨s.obuf.writeBytes 0 (wireHeader s.pkt s.pkt.pktSize), ?_, obuf_writeBytes_zero s _⟩⟩
  · exact congrArg Host.Outcome.next ((encHdr_eq s).trans (if_pos hshort))
  · exact congrArg Host.Outcome.next ((encHdr_eq s).trans (if_neg hroom.not_gt))

/-- Settles O53: a legal word's row is encoded from the word's seven fields, and these leave out the reserved bits only. -/
theorem headerReencodesWithReservedBitsClear : Obligations.HeaderReencodesWithReservedBitsClear := by
  intro w hlegal
  rw [encodeNumber_decodeHeader ((hdrType_toNat w).trans_le hlegal), headerWord_of_fields]

/-- Settles O22: each legal row is the header decoder's acceptance of a word of its own type. -/
theorem legalHeaderRowsGiveTheirFields : Obligations.LegalHeaderRowsGiveTheirFields := by
  intro s q c t tsi tsf cnt size hseq
  have htake (ty : BitVec 4) : (.next (takeHeader ty c t tsi tsf cnt size s) : Host.Outcome State Fault Refusal) = _ :=
    congrArg Host.Outcome.next (takeHeader_some ty c t tsi tsf cnt size hseq)
  exact ⟨htake 0#4, htake 1#4, htake 2#4, htake 3#4, htake 4#4, htake 5#4⟩

end Sys2Proof.Machine
end

section
/-! PROOFS. The statements of 43_trailer_codec.md settled. -/

namespace Sys2Proof.Machine

/-- Settles O12, by the closed form of DEC_TRL: its one test is of the view, the word itself is not checked (R175). -/
theorem decTrlDecodesTheTrailerWord : Obligations.DecTrlDecodesTheTrailerWord := by
  intro s
  refine congrArg Host.Outcome.next ((decTrl_eq s).trans ?_)
  split
  next => exact fail_insufficientInput 5#4 _ s
  next => exact succeed_eq_succeeded 5#4 4 (s.inLen - 4) _

/-- Settles O13, by the closed form of ENC_TRL: the bytes written from OBUF address 0 upward are those of TRAILER. -/
theorem encTrlWritesTheTrailerWord : Obligations.EncTrlWritesTheTrailerWord := by
  intro s
  refine ⟨fun hshort => ?_, fun hroom => ⟨s.obuf.writeBytes 0 (wire32 s.pkt.trailer), ?_, obuf_writeBytes_zero s _⟩⟩
  · exact congrArg Host.Outcome.next ((encTrl_eq s).trans (if_pos hshort))
  · exact congrArg Host.Outcome.next ((encTrl_eq s).trans (if_neg hroom.not_gt))

end Sys2Proof.Machine
end

section
/-! PROOFS. DEC_PKT in closed form: past its four tests the cursor stands at the offsets of 30_encoding.md R111, so that no defensive
check fires (44_packet_parser.md R194), and its outcome is the first error that applies or the packet value read at those offsets. -/

namespace Sys2Proof.Machine

/-- Of a field, only the value it has where it is present needs to be compared. -/
theorem present_congr {α : Type} {sel : Bool} {x y z : α} (h : sel = true → x = y) :
    (if sel then x else z) = if sel then y else z := if_ctx_congr Iff.rfl h fun _ => rfl

/-! ## The optional fields at the cursor -/

section Fields
variable {s : State} {q : Seq}

/-- The command in progress past a field of `n` bytes, with the values decoded so far. -/
def Seq.past (q : Seq) (n : Nat) (p : Packet) : Seq := { q with cur := q.cur + n, rem := q.rem - n, pkt := p }

/-- The defensive check of a field that ends inside the view does not fire (44_packet_parser.md R194): the field is read where the
header selects it, and passed by elsewhere. -/
theorem ifSel_read {sel : Packet → Bool} {k : Seq → State → State} {n : Nat} {q' : Seq}
    (hin : q.cur + widthIf (sel q.pkt) n ≤ s.inLen)
    (hk : (if sel q.pkt then k q (setSeq q s) else setSeq q s) = setSeq q' s) :
    ifSel sel (fun t => withSeq k (needBytes n t)) (setSeq q s) = setSeq q' s := by
  rw [ifSel_some _ _ (setSeq_seq q s), ← hk]
  cases hsel : sel q.pkt with
  | false => rfl
  | true =>
    rw [hsel, widthIf, if_pos rfl] at hin
    rw [if_pos rfl, if_pos rfl, withSeq_needBytes k n (setSeq_seq q s), if_neg]
    rw [setSeq_inLen]
    omega

theorem ifSel_readStreamId (hin : q.cur + widthIf (selS q.pkt) 4 ≤ s.inLen) :
    ifSel selS readStreamId (setSeq q s) = setSeq (q.past (widthIf (selS q.pkt) 4)
      { q.pkt with streamId := if selS q.pkt then wordAt s q.cur else q.pkt.streamId }) s :=
  ifSel_read hin (by rw [← ofNat_memRead_four]; cases selS q.pkt <;> rfl)

theorem ifSel_readClassId (hin : q.cur + widthIf (selC q.pkt) 8 ≤ s.inLen) :
    ifSel selC readClassId (setSeq q s) = setSeq (q.past (widthIf (selC q.pkt) 8)
      { q.pkt with
        classOui := if selC q.pkt then wordAt s q.cur else q.pkt.classOui
        classIcc := if selC q.pkt then halfAt s (q.cur + 4) else q.pkt.classIcc
        classPcc := if selC q.pkt then halfAt s (q.cur + 6) else q.pkt.classPcc }) s :=
  ifSel_read hin (by rw [← ofNat_memRead_four, ← ofNat_memRead_two, ← ofNat_memRead_two]; cases selC q.pkt <;> rfl)

theorem ifSel_readTsi (hin : q.cur + widthIf (selI q.pkt) 4 ≤ s.inLen) :
    ifSel selI readTsi (setSeq q s) = setSeq (q.past (widthIf (selI q.pkt) 4)
      { q.pkt with tsiVal := if selI q.pkt then wordAt s q.cur else q.pkt.tsiVal }) s :=
  ifSel_read hin (by rw [← ofNat_memRead_four]; cases selI q.pkt <;> rfl)

theorem ifSel_readTsf (hin : q.cur + widthIf (selF q.pkt) 8 ≤ s.inLen) :
    ifSel selF readTsf (setSeq q s) = setSeq (q.past (widthIf (selF q.pkt) 8)
      { q.pkt with tsfVal := if selF q.pkt then longAt s q.cur else q.pkt.tsfVal }) s :=
  ifSel_read hin (by rw [← ofNat_memRead_eight]; cases selF q.pkt <;> rfl)

theorem ifSel_readTrailer (hin : q.cur + widthIf (selT q.pkt) 4 ≤ s.inLen) :
    ifSel selT readTrailer (setSeq q s) = setSeq { q with
      cur := q.cur + widthIf (selT q.pkt) 4
      pkt := { q.pkt with trailer := if selT q.pkt then wordAt s q.cur else q.pkt.trailer } } s :=
  ifSel_read hin (by rw [← ofNat_memRead_four]; cases selT q.pkt <;> rfl)

end Fields

/-- The values of the present optional fields at their offsets of 30_encoding.md R111. -/
def Packet.withFields (s : State) (p : Packet) : Packet :=
  { p with
    streamId := if selS p then wordAt s 4 else p.streamId
    classOui := if selC p then wordAt s (offClassId p) else p.classOui
    classIcc := if selC p then halfAt s (offClassId p + 4) else p.classIcc
    classPcc := if selC p then halfAt s (offClassId p + 6) else p.classPcc
    tsiVal := if selI p then wordAt s (offTsi p) else p.tsiVal
    tsfVal := if selF p then longAt s (offTsf p) else p.tsfVal }

/-- Step 4 of DEC_PKT (44_packet_parser.md R185 to R188): the cursor ends at the payload, and the running length has lost the widths
of the fields read. -/
theorem readFields_eq {s : State} {p : Packet} (op : BitVec 4) (rem : Nat) (hin : offPayload p ≤ s.inLen) :
    (setSeq { op := op, cur := 4, rem := rem, pkt := p } s
      |> ifSel selS readStreamId |> ifSel selC readClassId |> ifSel selI readTsi |> ifSel selF readTsf) =
    setSeq { op := op, cur := offPayload p, rem := rem - (offPayload p - 4), pkt := p.withFields s } s := by
  have hcid : 4 + widthIf (selS p) 4 = offClassId p := rfl
  have htsi : offClassId p + widthIf (selC p) 8 = offTsi p := rfl
  have htsf : offTsi p + widthIf (selI p) 4 = offTsf p := rfl
  have hpay : offTsf p + widthIf (selF p) 8 = offPayload p := rfl
  have hrem : rem - widthIf (selS p) 4 - widthIf (selC p) 8 - widthIf (selI p) 4 - widthIf (selF p) 8 =
      rem - (offPayload p - 4) := by omega
  rw [← hrem, ifSel_readStreamId (by dsimp only; omega), ifSel_readClassId, ifSel_readTsi, ifSel_readTsf]
  · rfl
  · change offTsf p + widthIf (selF p) 8 ≤ _; omega
  · change offTsi p + widthIf (selI p) 4 ≤ _; omega
  · change offClassId p + widthIf (selC p) 8 ≤ _; omega

/-! ## The packet value -/

/-- The length in bytes a header declares (44_packet_parser.md R182). -/
def Packet.totalBytes (p : Packet) : Nat := 4 * p.pktSize.toNat

/-- The packet value DEC_PKT makes of a header: the present fields, the payload view behind them, and the trailer behind the payload
(44_packet_parser.md R185 to R190). -/
def Packet.parsed (s : State) (p : Packet) : Packet :=
  { p.withFields s with
    payOff := offPayload p
    payLen := p.totalBytes - overhead p
    trailer := if selT p then wordAt s (offPayload p + (p.totalBytes - overhead p)) else p.trailer }

theorem four_le_offPayload (p : Packet) : 4 ≤ offPayload p := by
  simp only [offPayload, offTsf, offTsi, offClassId]
  omega

/-- Behind the payload and the trailer the packet ends (44_packet_parser.md R195). -/
theorem payload_end {p : Packet} (hoverhead : overhead p ≤ p.totalBytes) :
    offPayload p + (p.totalBytes - overhead p) + widthIf (selT p) 4 = p.totalBytes := by
  rw [overhead] at hoverhead ⊢
  omega

theorem initRem_setSeq (q : Seq) (s : State) :
    initRem (setSeq q s) = setSeq { q with rem := q.pkt.totalBytes - 4 - widthIf (selT q.pkt) 4 } s := rfl

theorem takePayload_setSeq (q : Seq) (s : State) :
    takePayload (setSeq q s) =
      setSeq { q with cur := q.cur + q.rem, pkt := { q.pkt with payOff := q.cur, payLen := q.rem } } s := rfl

/-- DEC_PKT after its last test: every field lies inside the view, and the packet value is committed (44_packet_parser.md R194). -/
theorem readPacket_eq {s : State} {p : Packet} (op : BitVec 4) (htotal : p.totalBytes ≤ s.inLen)
    (hoverhead : overhead p ≤ p.totalBytes) :
    (setSeq { op := op, cur := 4, rem := 0, pkt := p } s
      |> initRem |> ifSel selS readStreamId |> ifSel selC readClassId |> ifSel selI readTsi |> ifSel selF readTsf
      |> takePayload |> ifSel selT readTrailer |> commitPacket |> finishPacket) =
    succeed op p.totalBytes (s.inLen - p.totalBytes) { s with pkt := p.parsed s } := by
  have hmin := four_le_offPayload p
  have hend := payload_end hoverhead
  have hrem : p.totalBytes - 4 - widthIf (selT p) 4 - (offPayload p - 4) = p.totalBytes - overhead p := by
    rw [overhead]
    omega
  have hpayload : offPayload p ≤ s.inLen := by omega
  rw [initRem_setSeq, readFields_eq op _ hpayload, hrem, takePayload_setSeq, ifSel_readTrailer (hend.trans_le htotal)]
  rfl

/-- The packet value written out in Safety.lean is that of its header, where the header's size covers its shape: the trailer is the
packet's last word. -/
theorem parsedPacket_eq {s : State} (hoverhead : shapeOverhead (parsedPacket s) ≤ (parsedPacket s).totalBytes) :
    parsedPacket s = (headerFields (wordAt s 0)).parsed s := by
  have hend := payload_end ((overhead_eq (headerFields (wordAt s 0))).trans_le hoverhead)
  have htrailer : (parsedPacket s).trailer = ((headerFields (wordAt s 0)).parsed s).trailer := by
    refine present_congr fun hT => ?_
    rw [hT, widthIf, if_pos rfl] at hend
    exact congrArg (wordAt s) (Nat.sub_eq_of_eq_add hend.symm)
  simp only [parsedPacket] at htrailer ⊢
  simp only [htrailer, Packet.parsed, Packet.withFields, offTsf, offTsi, offClassId, offPayload_eq, overhead_eq, widthIf_eq]
  rfl

/-! ## The closed form -/

theorem hdrSize_toNat (w : BitVec 32) : (hdrSize w).toNat = w.toNat % 2 ^ 16 := by simp [hdrSize]

theorem checkTotal_setSeq (q : Seq) (s : State) :
    checkTotal (setSeq q s) =
      if s.inLen < q.pkt.totalBytes then fail q.op (insufficientInput (q.pkt.totalBytes - s.inLen)) s else setSeq q s :=
  checkTotal_some (setSeq_seq q s)

theorem checkOverhead_setSeq (q : Seq) (s : State) :
    checkOverhead (setSeq q s) =
      if q.pkt.totalBytes < overhead q.pkt then fail q.op integerConversionOverflow s else setSeq q s :=
  checkOverhead_some (setSeq_seq q s)

/-- The error DEC_PKT raises, in the order of the tests of 44_packet_parser.md R199. -/
def decPktError (s : State) : Option CmdError :=
  let p := parsedPacket s
  if s.inLen < 4 then some (insufficientInput (4 - s.inLen))
  else if 5 < p.pktType.toNat then some (invalidEnumCode fieldPacketType p.pktType.toNat)
  else if s.inLen < p.totalBytes then some (insufficientInput (p.totalBytes - s.inLen))
  else if p.totalBytes < shapeOverhead p then some integerConversionOverflow
  else none

/-- The state in which DEC_PKT succeeds (R191). -/
def decPktDone (s : State) : State :=
  let p := parsedPacket s
  succeed 7#4 p.totalBytes (s.inLen - p.totalBytes) { s with pkt := p }

theorem decPktDone_pkt (s : State) : (decPktDone s).pkt = parsedPacket s := rfl

/-- Step 1 of DEC_PKT (R181). -/
theorem decPkt_header_eq (s : State) :
    readHeader (start 7#4 s) =
      if s.inLen < 4 then fail 7#4 (insufficientInput (4 - s.inLen)) s
      else if 5 < (parsedPacket s).pktType.toNat then
        fail 7#4 (invalidEnumCode fieldPacketType (parsedPacket s).pktType.toNat) s
      else setSeq { op := 7#4, cur := 4, rem := 0, pkt := headerFields (wordAt s 0) } s := by
  have htype : (hdrType (wordAt s 0)).toNat ≤ 5 ↔ ¬ 5 < (parsedPacket s).pktType.toNat := Nat.not_lt.symm
  rw [readHeader_start, decHeaderWord_eq]
  simp only [htype, ite_not]
  rfl

theorem decPkt_eq (s : State) : decPkt s = (decPktError s).elim (decPktDone s) fun e => fail 7#4 e s := by
  have htotal : (headerFields (wordAt s 0)).totalBytes = (parsedPacket s).totalBytes := rfl
  have hoverhead : overhead (headerFields (wordAt s 0)) = shapeOverhead (parsedPacket s) := overhead_eq _
  unfold decPkt decPktError
  dsimp only
  rw [decPkt_header_eq]
  split
  · rfl
  split
  · rfl
  rw [checkTotal_setSeq, htotal]
  split
  · rfl
  next hview =>
    rw [checkOverhead_setSeq, htotal, hoverhead]
    split
    · rfl
    next hfits =>
      rw [readPacket_eq 7#4 (by omega) (by omega), ← parsedPacket_eq (by omega)]
      rfl

/-! ## How DEC_PKT ends -/

theorem exec_decPkt_of_none {s : State} (h : decPktError s = none) : exec .decPkt s = .next (decPktDone s) :=
  congrArg Host.Outcome.next ((decPkt_eq s).trans (by rw [h]; rfl))

theorem exec_decPkt_of_some {s : State} {e : CmdError} (h : decPktError s = some e) :
    exec .decPkt s = .next (fail 7#4 e s) :=
  congrArg Host.Outcome.next ((decPkt_eq s).trans (by rw [h]; rfl))

/-- The two ways DEC_PKT ends, told apart by STATUS.OK. -/
theorem exec_decPkt_cases {s t : State} (h : exec .decPkt s = .next t) :
    (decPktError s = none ∧ t = decPktDone s ∧ statusOk t.status = true) ∨
    ∃ e, decPktError s = some e ∧ t = fail 7#4 e s ∧ statusOk t.status = false := by
  cases herr : decPktError s with
  | none =>
    obtain rfl := Host.Outcome.next.inj ((exec_decPkt_of_none herr).symm.trans h)
    exact .inl ⟨rfl, rfl, statusOk_packStatus ..⟩
  | some e =>
    obtain rfl := Host.Outcome.next.inj ((exec_decPkt_of_some herr).symm.trans h)
    exact .inr ⟨e, rfl, rfl, statusOk_packStatus ..⟩

theorem exec_decPkt_ok {s t : State} (h : exec .decPkt s = .next t) (hok : statusOk t.status = true) :
    decPktError s = none ∧ t = decPktDone s := by
  obtain ⟨herr, ht, -⟩ | ⟨e, -, -, hfail⟩ := exec_decPkt_cases h
  · exact ⟨herr, ht⟩
  · rw [hok] at hfail
    cases hfail

/-- Where no test fails the packet lies inside the view and its size covers its shape. -/
theorem bounds_of_decPktError_eq_none {s : State} (h : decPktError s = none) :
    (parsedPacket s).totalBytes ≤ s.inLen ∧ shapeOverhead (parsedPacket s) ≤ (parsedPacket s).totalBytes := by
  simp only [decPktError] at h
  split_ifs at h
  omega

/-! ## The shape of the packet value -/

theorem parsedPacket_payOff (s : State) : (parsedPacket s).payOff = payloadOffset (parsedPacket s) := rfl

theorem parsedPacket_payLen (s : State) :
    (parsedPacket s).payLen = (parsedPacket s).totalBytes - shapeOverhead (parsedPacket s) := rfl

/-- The seven places a payload can stand at (44_packet_parser.md R183). -/
theorem payloadOffset_mem (p : Packet) : payloadOffset p ∈ [4, 8, 12, 16, 20, 24, 28] := by
  rw [payloadOffset]
  generalize selS p = S, selC p = C, selI p = I, selF p = F
  revert S C I F
  decide

/-- Only the bytes before and behind the payload settle the packet value: every present field stands before it, the trailer behind
it. -/
theorem parsedPacket_congr {s u : State} (hoverhead : shapeOverhead (parsedPacket s) ≤ (parsedPacket s).totalBytes)
    (h : ∀ a, a < (parsedPacket s).payOff ∨ (parsedPacket s).payOff + (parsedPacket s).payLen ≤ a →
      u.inByte a = s.inByte a) : parsedPacket u = parsedPacket s := by
  have hbefore (a n : Nat) (ha : a + n ≤ payloadOffset (headerFields (wordAt s 0))) (k : Nat) (hk : k < n) :
      u.inByte (a + k) = s.inByte (a + k) := h _ (.inl (lt_of_lt_of_le (by omega) ha))
  have hheader : wordAt u 0 = wordAt s 0 :=
    wordAt_congr u s 0 0 (hbefore 0 4 (by simp only [payloadOffset]; omega))
  have hbehind (hT : selT (headerFields (wordAt s 0)) = true) (k : Nat) (hk : k < 4) :
      u.inByte ((parsedPacket s).totalBytes - 4 + k) = s.inByte ((parsedPacket s).totalBytes - 4 + k) := by
    have hshape : shapeOverhead (parsedPacket s) = payloadOffset (parsedPacket s) + 4 := congrArg (_ + 4 * Bool.toNat ·) hT
    refine h _ (.inr ?_)
    rw [parsedPacket_payOff, parsedPacket_payLen]
    omega
  simp only [parsedPacket, hheader, Packet.mk.injEq, true_and]
  refine ⟨present_congr fun hS => ?_, present_congr fun hC => ?_, present_congr fun hC => ?_, present_congr fun hC => ?_,
    present_congr fun hI => ?_, present_congr fun hF => ?_, present_congr fun hT => ?_⟩
  · exact wordAt_congr u s _ _ (hbefore _ 4 (by simp only [payloadOffset, hS, Bool.toNat_true]; omega))
  · exact wordAt_congr u s _ _ (hbefore _ 4 (by simp only [payloadOffset, hC, Bool.toNat_true]; omega))
  · exact halfAt_congr u s _ _ (hbefore _ 2 (by simp only [payloadOffset, hC, Bool.toNat_true]; omega))
  · exact halfAt_congr u s _ _ (hbefore _ 2 (by simp only [payloadOffset, hC, Bool.toNat_true]; omega))
  · exact wordAt_congr u s _ _ (hbefore _ 4 (by simp only [payloadOffset, hI, Bool.toNat_true]; omega))
  · exact longAt_congr u s _ _ (hbefore _ 8 (by simp only [payloadOffset, hF, Bool.toNat_true]; omega))
  · exact wordAt_congr u s _ _ (hbehind hT)

end Sys2Proof.Machine
end

section
/-! PROOFS. The statements of 44_packet_parser.md settled. -/

namespace Sys2Proof.Machine

/-- Settles O14, by the closed form of DEC_PKT: its four tests in order, then the packet value of the offsets. -/
theorem decPktParsesByOffsets : Obligations.DecPktParsesByOffsets := by
  intro s
  refine congrArg Host.Outcome.next ((decPkt_eq s).trans ?_)
  have htype : (parsedPacket s).pktType.toNat = (wordAt s 0).toNat / 2 ^ 28 := hdrType_toNat _
  have htotal : (parsedPacket s).totalBytes = 4 * ((wordAt s 0).toNat % 2 ^ 16) :=
    congrArg (4 * ·) (hdrSize_toNat _)
  simp only [decPktError, decPktDone, htype, htotal]
  split
  next => exact fail_insufficientInput 7#4 _ s
  next =>
    split
    next => exact fail_invalidPacketType 7#4 _ s
    next =>
      split
      next => exact fail_insufficientInput 7#4 _ s
      next =>
        split
        next => rfl
        next => rfl

/-- Settles O15: DEC_PKT commits the packet value of the offsets, and its tests passed. -/
theorem parsedPacketPresenceAlgebra : Obligations.ParsedPacketPresenceAlgebra := by
  intro s t hexec hok
  obtain ⟨herr, rfl⟩ := exec_decPkt_ok hexec hok
  obtain ⟨hview, hoverhead⟩ := bounds_of_decPktError_eq_none herr
  have hif (sel : Bool) (n : Nat) : (if sel then n else 0) = n * sel.toNat := widthIf_eq sel n
  have habsent {α : Type} {sel : Bool} {x y : α} (h : sel = false) : (if sel then x else y) = y :=
    if_neg (ne_true_of_eq_false h)
  have htotal : (parsedPacket s).totalBytes = 4 * (parsedPacket s).pktSize.toNat := rfl
  have hshape : shapeOverhead (parsedPacket s) = payloadOffset (parsedPacket s) + 4 * (selT (parsedPacket s)).toNat := rfl
  have hoffset : payloadOffset (parsedPacket s) = 4 + 4 * (selS (parsedPacket s)).toNat + 8 * (selC (parsedPacket s)).toNat +
    4 * (selI (parsedPacket s)).toNat + 8 * (selF (parsedPacket s)).toNat := rfl
  rw [decPktDone_pkt, hif, hif, hif, hif, hif, parsedPacket_payOff, parsedPacket_payLen]
  refine ⟨by omega, rfl, by omega, rfl, hview, rfl, by omega, payloadOffset_mem _, habsent,
    fun h => ⟨habsent h, habsent h, habsent h⟩, habsent, habsent, habsent⟩

/-- Settles O16: the error and the packet value are those of the input, and of the packet registers DEC_PKT keeps nothing or all. -/
theorem decPktIgnoresEarlierRegisters : Obligations.DecPktIgnoresEarlierRegisters := by
  intro s t p hexec
  obtain ⟨herr, rfl, hok⟩ | ⟨e, herr, rfl, hfail⟩ := exec_decPkt_cases hexec
  · exact ⟨fun _ => exec_decPkt_of_none (s := { s with pkt := p }) herr, fun hfail => by simp [hok] at hfail⟩
  · exact ⟨fun hok => by simp at hok, fun _ => exec_decPkt_of_some (s := { s with pkt := p }) herr⟩

/-- Settles O17: the error and the packet value do not depend on the payload's bytes. -/
theorem decPktReadsNoPayloadByte : Obligations.DecPktReadsNoPayloadByte := by
  intro s t m hexec hok hm
  obtain ⟨herr, rfl⟩ := exec_decPkt_ok hexec hok
  have hpacket : parsedPacket { s with ibuf := m } = parsedPacket s :=
    parsedPacket_congr (bounds_of_decPktError_eq_none herr).2 hm
  have herr' : decPktError { s with ibuf := m } = none := by
    rw [decPktError, hpacket]
    exact herr
  rw [exec_decPkt_of_none herr', decPktDone, hpacket]
  rfl

/-- Settles O24: each field row is the stage of its field. -/
theorem fieldRowsGiveTheirValue : Obligations.FieldRowsGiveTheirValue := by
  intro s q hseq
  exact ⟨fun v => congrArg Host.Outcome.next (takeStreamId_some v hseq),
    fun oui icc pcc => congrArg Host.Outcome.next (takeClassId_some oui icc pcc hseq),
    fun v => congrArg Host.Outcome.next (takeTsi_some v hseq),
    fun v => congrArg Host.Outcome.next (takeTsf_some v hseq),
    fun f => congrArg Host.Outcome.next (takeTrailer_some (trailerWord f) hseq)⟩

end Sys2Proof.Machine
end

section
/-! PROOFS. ENC_PKT in closed form (45_packet_assembler.md R218, R222), and what it says of IBUF that it holds the bytes of a packet:
each present field stands at its offset of 30_encoding.md R111. The two directions of R219 meet there. -/

namespace Sys2Proof.Machine

/-! ## The closed form -/

theorem assembledBytes_eq (p : Packet) : assembledBytes p = shapeOverhead p + p.payLen :=
  congrArg (· + p.payLen) (overhead_eq p)

theorem assembledWords_eq (p : Packet) : assembledWords p = (shapeOverhead p + p.payLen) / 4 :=
  congrArg (· / 4) (assembledBytes_eq p)

/-- The error ENC_PKT raises, in the order of the tests of 45_packet_assembler.md R222. -/
def encPktError (s : State) : Option CmdError :=
  if s.pkt.payLen % 4 ≠ 0 then some integerConversionOverflow
  else if 65535 < assembledWords s.pkt then some integerConversionOverflow
  else if s.inLen < s.pkt.payOff + s.pkt.payLen then some (insufficientInput (s.pkt.payOff + s.pkt.payLen - s.inLen))
  else if s.outCap < assembledBytes s.pkt then some outputTooSmall
  else none

/-- The state in which ENC_PKT succeeds (R218). -/
def encPktDone (s : State) : State :=
  succeed 8#4 (assembledBytes s.pkt) 0 { s with obuf := s.obuf.writeBytes 0 (wirePacket s (assembledWords s.pkt)) }

theorem exec_encPkt_eq (s : State) :
    exec .encPkt s = .next ((encPktError s).elim (encPktDone s) fun e => fail 8#4 e s) := by
  refine congrArg Host.Outcome.next ((encPkt_eq s).trans ?_)
  rw [encPktError]
  split_ifs <;> rfl

theorem encPktError_eq_none_iff (s : State) :
    encPktError s = none ↔ s.pkt.payLen % 4 = 0 ∧ assembledWords s.pkt ≤ 65535 ∧
      s.pkt.payOff + s.pkt.payLen ≤ s.inLen ∧ assembledBytes s.pkt ≤ s.outCap := by
  rw [encPktError]
  split_ifs <;> simp <;> omega

theorem exec_encPkt_of_none {s : State} (h : encPktError s = none) : exec .encPkt s = .next (encPktDone s) := by
  rw [exec_encPkt_eq, h]
  rfl

/-- ENC_PKT sets STATUS.OK only where no test fails. -/
theorem exec_encPkt_ok {s t : State} (h : exec .encPkt s = .next t) (hok : statusOk t.status = true) :
    encPktError s = none ∧ t = encPktDone s := by
  rw [exec_encPkt_eq] at h
  cases h
  cases herr : encPktError s with
  | none => exact ⟨rfl, rfl⟩
  | some e =>
    rw [herr, Option.elim_some, fail_status, statusOk_packStatus] at hok
    cases hok

theorem encPktDone_outByte (s : State) (a : Nat) :
    (encPktDone s).outByte a = (wirePacket s (assembledWords s.pkt)).getD a (s.outByte a) := obuf_writeBytes_zero s _ a

/-! ## Bytes that stand in IBUF -/

theorem inBytes_add (s : State) (a m n : Nat) : inBytes s a (m + n) = inBytes s a m ++ inBytes s (a + m) n := by
  simp [inBytes, List.range_add, Nat.add_assoc]

/-- The bytes stand in IBUF from an address upward. -/
def State.Holds (s : State) (a : Nat) (bs : List Byte) : Prop := inBytes s a bs.length = bs

section Holds
variable {s : State} {a : Nat}

theorem holds_iff_getElem {bs : List Byte} : s.Holds a bs ↔ ∀ k (hk : k < bs.length), s.inByte (a + k) = bs[k] := by
  simp [State.Holds, inBytes, List.ext_getElem_iff]

@[simp] theorem holds_nil : s.Holds a [] := rfl

theorem holds_append {xs ys : List Byte} : s.Holds a (xs ++ ys) ↔ s.Holds a xs ∧ s.Holds (a + xs.length) ys := by
  rw [State.Holds, List.length_append, inBytes_add]
  exact ⟨fun h => List.append_inj h (inBytes_length ..), fun ⟨hx, hy⟩ => congrArg₂ _ hx hy⟩

/-- The bytes of an optional field stand in IBUF where the field is present. -/
theorem holds_ite {sel : Bool} {bs : List Byte} : s.Holds a (if sel then bs else []) ↔ (sel = true → s.Holds a bs) := by
  cases sel <;> simp

theorem wire16_halfAt (s : State) (a : Nat) : wire16 (halfAt s a) = inBytes s a 2 := by
  rw [← beBytes_two, toNat_halfAt]
  exact beBytes_beNat (inBytes s a 2)

theorem wire32_wordAt (s : State) (a : Nat) : wire32 (wordAt s a) = inBytes s a 4 := by
  rw [← beBytes_four, toNat_wordAt]
  exact beBytes_beNat (inBytes s a 4)

theorem wire64_longAt (s : State) (a : Nat) : wire64 (longAt s a) = inBytes s a 8 := by
  rw [← beBytes_eight, toNat_longAt]
  exact beBytes_beNat (inBytes s a 8)

theorem holds_wire16 {v : BitVec 16} : s.Holds a (wire16 v) ↔ halfAt s a = v := by
  rw [State.Holds, wire16_length, ← wire16_halfAt]
  exact ⟨wire16_inj _ _, congrArg wire16⟩

theorem holds_wire32 {v : BitVec 32} : s.Holds a (wire32 v) ↔ wordAt s a = v := by
  rw [State.Holds, wire32_length, ← wire32_wordAt]
  exact ⟨wire32_inj _ _, congrArg wire32⟩

theorem holds_wire64 {v : BitVec 64} : s.Holds a (wire64 v) ↔ longAt s a = v := by
  rw [State.Holds, wire64_length, ← wire64_longAt]
  exact ⟨wire64_inj _ _, congrArg wire64⟩

theorem holds_wireClassId {p : Packet} :
    s.Holds a (wireClassId p) ↔
      wordAt s a = p.classOui ∧ halfAt s (a + 4) = p.classIcc ∧ halfAt s (a + 6) = p.classPcc := by
  rw [wireClassId, holds_append, holds_append, holds_wire32, holds_wire16, holds_wire16, and_assoc]
  rfl

theorem holds_inBytes {u : State} {b n : Nat} :
    s.Holds a (inBytes u b n) ↔ ∀ k, k < n → s.inByte (a + k) = u.inByte (b + k) := by
  simp [State.Holds, inBytes]

end Holds

/-! ## A packet in IBUF -/

/-- The bytes of the packet ENC_PKT emits behind its header (30_encoding.md R111). -/
def wireBody (s : State) : List Byte :=
  (if selS s.pkt then wire32 s.pkt.streamId else []) ++ ((if selC s.pkt then wireClassId s.pkt else []) ++
    ((if selI s.pkt then wire32 s.pkt.tsiVal else []) ++ ((if selF s.pkt then wire64 s.pkt.tsfVal else []) ++
      (inBytes s s.pkt.payOff s.pkt.payLen ++ if selT s.pkt then wire32 s.pkt.trailer else []))))

theorem wirePacket_eq_header_append (s : State) (n : Nat) :
    wirePacket s n = wireHeader s.pkt (BitVec.ofNat 16 n) ++ wireBody s := by
  simp only [wirePacket, wireBody, inBytes, List.append_assoc]

theorem length_ite (sel : Bool) (bs : List Byte) : (if sel then bs else []).length = widthIf sel bs.length := by
  cases sel <;> rfl

/-- IBUF of `u` carries the present fields of the packet value of `s` at their offsets, and behind them the payload and the trailer. -/
structure CarriesBody (u s : State) : Prop where
  streamId : selS s.pkt = true → wordAt u 4 = s.pkt.streamId
  classId : selC s.pkt = true → wordAt u (offClassId s.pkt) = s.pkt.classOui ∧
    halfAt u (offClassId s.pkt + 4) = s.pkt.classIcc ∧ halfAt u (offClassId s.pkt + 6) = s.pkt.classPcc
  tsiVal : selI s.pkt = true → wordAt u (offTsi s.pkt) = s.pkt.tsiVal
  tsfVal : selF s.pkt = true → longAt u (offTsf s.pkt) = s.pkt.tsfVal
  payload : ∀ k, k < s.pkt.payLen → u.inByte (offPayload s.pkt + k) = s.inByte (s.pkt.payOff + k)
  trailer : selT s.pkt = true → wordAt u (offPayload s.pkt + s.pkt.payLen) = s.pkt.trailer

/-- The bytes behind the header stand in IBUF exactly where every field stands at its offset. -/
theorem holds_wireBody_iff {u s : State} : u.Holds 4 (wireBody s) ↔ CarriesBody u s := by
  have hcid : 4 + widthIf (selS s.pkt) 4 = offClassId s.pkt := rfl
  have htsi : offClassId s.pkt + widthIf (selC s.pkt) 8 = offTsi s.pkt := rfl
  have htsf : offTsi s.pkt + widthIf (selI s.pkt) 4 = offTsf s.pkt := rfl
  have hpay : offTsf s.pkt + widthIf (selF s.pkt) 8 = offPayload s.pkt := rfl
  simp only [wireBody, holds_append, holds_ite, length_ite, wire32_length, wire64_length, wireClassId_length, inBytes_length,
    hcid, htsi, htsf, hpay, holds_wire32, holds_wireClassId, holds_wire64, holds_inBytes]
  exact ⟨fun ⟨hS, hC, hI, hF, hP, hT⟩ => ⟨hS, hC, hI, hF, hP, hT⟩,
    fun ⟨hS, hC, hI, hF, hP, hT⟩ => ⟨hS, hC, hI, hF, hP, hT⟩⟩

/-! ## ENC_PKT after DEC_PKT -/

theorem wireHeader_eq_wire32 (p : Packet) (size : BitVec 16) :
    wireHeader p size =
      wire32 (headerWord p.pktType p.cidPresent p.trlPresent p.tsiKind p.tsfKind p.pktCount size) := by
  rw [← headerBytes_eq, ← beBytes_four]
  rfl

/-- The header's mask FC FF FF FF (42_header_codec.md R164) byte by byte. -/
theorem wire32_wordAt_masked (s : State) (a : Nat) :
    wire32 (wordAt s a &&& 0xFCFFFFFF#32) = (s.inByte a &&& 0xFC#8) :: inBytes s (a + 1) 3 := by
  have hword : wire32 (wordAt s a) = s.inByte a :: inBytes s (a + 1) 3 :=
    (wire32_wordAt s a).trans (inBytes_add s a 1 3)
  simp only [wire32, List.cons.injEq, BitVec.extractLsb'_and] at hword ⊢
  obtain ⟨h0, htail⟩ := hword
  have hkeep (b : Byte) : b &&& 0xFF#8 = b := BitVec.and_allOnes
  rw [h0, ← htail]
  exact ⟨rfl, congrArg₂ _ (hkeep _) (congrArg₂ _ (hkeep _) (congrArg₂ _ (hkeep _) rfl))⟩

/-- With the packet value DEC_PKT makes of IBUF, IBUF carries that packet's body. -/
theorem carriesBody_parsedPacket {s t : State} (hpkt : t.pkt = parsedPacket s) (hibuf : t.ibuf = s.ibuf)
    (hoverhead : shapeOverhead (parsedPacket s) ≤ (parsedPacket s).totalBytes) : CarriesBody s t := by
  rw [parsedPacket_eq hoverhead] at hpkt
  constructor <;> rw [hpkt]
  case streamId | tsiVal | tsfVal | trailer => exact fun hsel => (if_pos hsel).symm
  case classId => exact fun hC => ⟨(if_pos hC).symm, (if_pos hC).symm, (if_pos hC).symm⟩
  case payload =>
    intro k _
    rw [State.inByte, State.inByte, hibuf]
    rfl

/-- A parsed packet is as long as its header says. -/
theorem assembledBytes_parsedPacket {s : State}
    (hoverhead : shapeOverhead (parsedPacket s) ≤ (parsedPacket s).totalBytes) :
    assembledBytes (parsedPacket s) = (parsedPacket s).totalBytes := by
  rw [assembledBytes_eq, parsedPacket_payLen]
  omega

theorem assembledWords_parsedPacket {s : State}
    (hoverhead : shapeOverhead (parsedPacket s) ≤ (parsedPacket s).totalBytes) :
    assembledWords (parsedPacket s) = (parsedPacket s).pktSize.toNat := by
  rw [assembledWords, assembledBytes_parsedPacket hoverhead]
  exact Nat.mul_div_cancel_left _ (by decide)

/-- The packet ENC_PKT emits for the registers DEC_PKT committed: the decoded bytes, without the header's reserved bits. -/
theorem wirePacket_parsedPacket {s t : State} (hpkt : t.pkt = parsedPacket s) (hibuf : t.ibuf = s.ibuf)
    (hoverhead : shapeOverhead (parsedPacket s) ≤ (parsedPacket s).totalBytes) :
    wirePacket t (assembledWords t.pkt) =
      (s.inByte 0 &&& 0xFC#8) :: inBytes s 1 ((parsedPacket s).totalBytes - 1) := by
  have hlength : 4 + (wireBody t).length = (parsedPacket s).totalBytes := by
    rw [← assembledBytes_parsedPacket hoverhead, ← hpkt, ← wirePacket_length_eq_assembledBytes t 0,
      wirePacket_eq_header_append, List.length_append, wireHeader_length]
  have hheader : wireHeader t.pkt (BitVec.ofNat 16 (assembledWords t.pkt)) = wire32 (wordAt s 0 &&& 0xFCFFFFFF#32) := by
    rw [wireHeader_eq_wire32, hpkt, assembledWords_parsedPacket hoverhead, BitVec.ofNat_toNat, BitVec.setWidth_eq,
      ← headerWord_of_fields]
    rfl
  have hbody : wireBody t = inBytes s 4 (wireBody t).length :=
    (holds_wireBody_iff.mpr (carriesBody_parsedPacket hpkt hibuf hoverhead)).symm
  calc wirePacket t (assembledWords t.pkt)
      = wire32 (wordAt s 0 &&& 0xFCFFFFFF#32) ++ wireBody t := by rw [wirePacket_eq_header_append, hheader]
    _ = (s.inByte 0 &&& 0xFC#8) :: (inBytes s 1 3 ++ inBytes s 4 (wireBody t).length) := by
      rw [wire32_wordAt_masked, ← hbody]
      rfl
    _ = (s.inByte 0 &&& 0xFC#8) :: inBytes s 1 ((parsedPacket s).totalBytes - 1) := by
      rw [← inBytes_add, ← hlength]
      congr 2
      omega

/-- The registers DEC_PKT committed pass the tests of ENC_PKT, where the packet fits OBUF. -/
theorem encPktError_parsedPacket {s t : State} (hpkt : t.pkt = parsedPacket s) (hinLen : t.inLen = s.inLen)
    (herr : decPktError s = none) (hroom : (parsedPacket s).totalBytes ≤ t.outCap) : encPktError t = none := by
  obtain ⟨hview, hoverhead⟩ := bounds_of_decPktError_eq_none herr
  have hsize := (parsedPacket s).pktSize.isLt
  have hshape : shapeOverhead (parsedPacket s) = payloadOffset (parsedPacket s) + 4 * (selT (parsedPacket s)).toNat := rfl
  have htotal : (parsedPacket s).totalBytes = 4 * (parsedPacket s).pktSize.toNat := rfl
  have hoffset : payloadOffset (parsedPacket s) % 4 = 0 := by
    rw [payloadOffset]
    omega
  rw [encPktError_eq_none_iff, hpkt, hinLen, assembledBytes_parsedPacket hoverhead, assembledWords_parsedPacket hoverhead,
    parsedPacket_payOff, parsedPacket_payLen]
  omega

/-! ## DEC_PKT after ENC_PKT -/

/-- The packet value read back from the packet of `p` (45_packet_assembler.md R219): its header fields with the recomputed size, the
present fields, 0 for the absent ones, and the payload where the shape puts it. -/
def Packet.readBack (p : Packet) : Packet :=
  { p with
    pktSize := BitVec.ofNat 16 (assembledWords p)
    streamId := if selS p then p.streamId else 0
    classOui := if selC p then p.classOui else 0
    classIcc := if selC p then p.classIcc else 0
    classPcc := if selC p then p.classPcc else 0
    tsiVal := if selI p then p.tsiVal else 0
    tsfVal := if selF p then p.tsfVal else 0
    payOff := payloadOffset p
    trailer := if selT p then p.trailer else 0 }

theorem headerFields_headerWord (ty cnt : BitVec 4) (c t : BitVec 1) (tsi tsf : BitVec 2) (size : BitVec 16) :
    headerFields (headerWord ty c t tsi tsf cnt size) =
      { Packet.zero with
        pktType := ty, cidPresent := c, trlPresent := t, tsiKind := tsi, tsfKind := tsf, pktCount := cnt, pktSize := size } := by
  have hfields (w : BitVec 32) : headerFields w = Packet.zero.withHeader w := rfl
  simp [hfields, Packet.withHeader]

theorem totalBytes_readBack {p : Packet} (hwhole : p.payLen % 4 = 0) (hsize : assembledWords p ≤ 65535) :
    p.readBack.totalBytes = shapeOverhead p + p.payLen := by
  have hsize' : p.readBack.totalBytes = 4 * (assembledWords p % 2 ^ 16) := congrArg (4 * ·) (BitVec.toNat_ofNat _ _)
  rw [hsize']
  rw [assembledWords_eq] at hsize ⊢
  simp only [shapeOverhead, payloadOffset] at hsize ⊢
  omega

/-- DEC_PKT reads back a packet that stands at the start of IBUF. -/
theorem parsedPacket_of_holds {u s : State} (hwhole : s.pkt.payLen % 4 = 0) (hsize : assembledWords s.pkt ≤ 65535)
    (hheader : u.Holds 0 (wireHeader s.pkt (BitVec.ofNat 16 (assembledWords s.pkt)))) (hbody : CarriesBody u s) :
    parsedPacket u = s.pkt.readBack := by
  rw [wireHeader_eq_wire32, holds_wire32] at hheader
  have hfields := headerFields_headerWord s.pkt.pktType s.pkt.pktCount s.pkt.cidPresent s.pkt.trlPresent s.pkt.tsiKind
    s.pkt.tsfKind (BitVec.ofNat 16 (assembledWords s.pkt))
  rw [← hheader] at hfields
  have htotal : (headerFields (wordAt u 0)).totalBytes = shapeOverhead s.pkt + s.pkt.payLen := by
    rw [hfields]
    exact totalBytes_readBack hwhole hsize
  have hoverhead : overhead (headerFields (wordAt u 0)) = shapeOverhead s.pkt := by
    rw [hfields]
    exact overhead_eq s.pkt
  have hshape : shapeOverhead (parsedPacket u) = overhead (headerFields (wordAt u 0)) := (overhead_eq _).symm
  have hcovers : shapeOverhead (parsedPacket u) ≤ (parsedPacket u).totalBytes := by
    rw [hshape, hoverhead]
    exact htotal ▸ Nat.le_add_right _ _
  rw [parsedPacket_eq hcovers, Packet.parsed, htotal, hoverhead, Nat.add_sub_cancel_left, hfields, Packet.readBack,
    ← offPayload_eq]
  simp only [Packet.withFields, Packet.mk.injEq, true_and]
  obtain ⟨hS, hC, hI, hF, -, hT⟩ := hbody
  exact ⟨present_congr hS, present_congr fun h => (hC h).1, present_congr fun h => (hC h).2.1,
    present_congr fun h => (hC h).2.2, present_congr hI, present_congr hF, rfl, present_congr hT⟩

/-- A packet of a legal type that fills the input view passes the tests of DEC_PKT. -/
theorem decPktError_of_readBack {u s : State} (hparsed : parsedPacket u = s.pkt.readBack) (htype : s.pkt.pktType.toNat ≤ 5)
    (hwhole : s.pkt.payLen % 4 = 0) (hsize : assembledWords s.pkt ≤ 65535) (hview : u.inLen = assembledBytes s.pkt) :
    decPktError u = none := by
  have htotal := totalBytes_readBack hwhole hsize
  have hshape : shapeOverhead s.pkt.readBack = shapeOverhead s.pkt := rfl
  have htype' : s.pkt.readBack.pktType = s.pkt.pktType := rfl
  obtain ⟨hmin, -⟩ := shapeOverhead_bounds s.pkt
  rw [assembledBytes_eq] at hview
  simp only [decPktError, hparsed, htotal, hshape, htype', hview]
  rw [if_neg (by omega), if_neg (by omega), if_neg (by omega), if_neg (by omega)]

/-! ## What ENC_PKT depends on -/

/-- The packet emitted depends on the registers of the present fields only, and not on PKT_SIZE (45_packet_assembler.md R214, R220). -/
structure SamePacket (p r : Packet) : Prop where
  pktType : p.pktType = r.pktType
  cidPresent : p.cidPresent = r.cidPresent
  trlPresent : p.trlPresent = r.trlPresent
  tsiKind : p.tsiKind = r.tsiKind
  tsfKind : p.tsfKind = r.tsfKind
  pktCount : p.pktCount = r.pktCount
  payOff : p.payOff = r.payOff
  payLen : p.payLen = r.payLen
  streamId : selS r = true → p.streamId = r.streamId
  classId : selC r = true → p.classOui = r.classOui ∧ p.classIcc = r.classIcc ∧ p.classPcc = r.classPcc
  tsiVal : selI r = true → p.tsiVal = r.tsiVal
  tsfVal : selF r = true → p.tsfVal = r.tsfVal
  trailer : selT r = true → p.trailer = r.trailer

namespace SamePacket
variable {p r : Packet}

theorem selects (h : SamePacket p r) :
    selS p = selS r ∧ selC p = selC r ∧ selI p = selI r ∧ selF p = selF r ∧ selT p = selT r :=
  ⟨congrArg carriesStreamId h.pktType, congrArg (· == 1#1) h.cidPresent, congrArg (· != 0#2) h.tsiKind,
    congrArg (· != 0#2) h.tsfKind, congrArg (· == 1#1) h.trlPresent⟩

theorem assembledBytes_congr (h : SamePacket p r) : assembledBytes p = assembledBytes r := by
  obtain ⟨hS, hC, hI, hF, hT⟩ := h.selects
  simp only [assembledBytes_eq, shapeOverhead, payloadOffset, hS, hC, hI, hF, hT, h.payLen]

theorem assembledWords_congr (h : SamePacket p r) : assembledWords p = assembledWords r :=
  congrArg (· / 4) h.assembledBytes_congr

theorem wirePacket_congr {s : State} (h : SamePacket p s.pkt) (n : Nat) : wirePacket { s with pkt := p } n = wirePacket s n := by
  obtain ⟨hS, hC, hI, hF, hT⟩ := h.selects
  have hheader : wireHeader p (BitVec.ofNat 16 n) = wireHeader s.pkt (BitVec.ofNat 16 n) := by
    rw [wireHeader, wireHeader, h.pktType, h.cidPresent, h.trlPresent, h.tsiKind, h.tsfKind, h.pktCount]
  have hclassId (hsel : selC s.pkt = true) : wireClassId p = wireClassId s.pkt := by
    obtain ⟨houi, hicc, hpcc⟩ := h.classId hsel
    rw [wireClassId, wireClassId, houi, hicc, hpcc]
  simp only [wirePacket, hheader, hS, hC, hI, hF, hT, h.payOff, h.payLen, State.inByte,
    present_congr fun hsel => congrArg wire32 (h.streamId hsel), present_congr hclassId,
    present_congr fun hsel => congrArg wire32 (h.tsiVal hsel), present_congr fun hsel => congrArg wire64 (h.tsfVal hsel),
    present_congr fun hsel => congrArg wire32 (h.trailer hsel)]

theorem encPktError_congr {s : State} (h : SamePacket p s.pkt) : encPktError { s with pkt := p } = encPktError s := by
  simp only [encPktError, h.payLen, h.payOff, h.assembledWords_congr, h.assembledBytes_congr]

theorem encPktDone_congr {s : State} (h : SamePacket p s.pkt) :
    encPktDone { s with pkt := p } = { encPktDone s with pkt := p } := by
  simp only [encPktDone, h.assembledWords_congr, h.assembledBytes_congr, h.wirePacket_congr]
  rfl

end SamePacket

end Sys2Proof.Machine
end

section
/-! PROOFS. The statements of 45_packet_assembler.md settled. -/

namespace Sys2Proof.Machine

/-- Settles O18, by the closed form of ENC_PKT: its four tests in order, then the packet written out. -/
theorem encPktEmitsThePacket : Obligations.EncPktEmitsThePacket := by
  intro s total
  have heq := encPkt_eq s
  have hbytes : assembledBytes s.pkt = total := assembledBytes_eq s.pkt
  have hwords : assembledWords s.pkt = total / 4 := assembledWords_eq s.pkt
  rw [hbytes, hwords] at heq
  refine ⟨fun hodd => ?_, fun hwhole hlong => ?_, fun hwhole hsize hshort => ?_, fun hwhole hsize hview hfull => ?_,
    fun hwhole hsize hview hroom => ⟨s.obuf.writeBytes 0 (wirePacket s (total / 4)), ?_, obuf_writeBytes_zero s _⟩⟩
  · rw [if_pos hodd] at heq
    exact congrArg Host.Outcome.next heq
  · rw [if_neg (not_not.mpr hwhole), if_pos hlong] at heq
    exact congrArg Host.Outcome.next heq
  · rw [if_neg (not_not.mpr hwhole), if_neg hsize.not_gt, if_pos hshort, fail_insufficientInput] at heq
    exact congrArg Host.Outcome.next heq
  · rw [if_neg (not_not.mpr hwhole), if_neg hsize.not_gt, if_neg hview.not_gt, if_pos hfull] at heq
    exact congrArg Host.Outcome.next heq
  · rw [if_neg (not_not.mpr hwhole), if_neg hsize.not_gt, if_neg hview.not_gt, if_neg hroom.not_gt] at heq
    exact congrArg Host.Outcome.next heq

/-- Settles O19: neither the tests nor the packet emitted look at PKT_SIZE or at the register of an absent field. -/
theorem encPktIgnoresSizeAndAbsentFields : Obligations.EncPktIgnoresSizeAndAbsentFields := by
  intro s t p htype hcid htrl htsi htsf hcount hoff hlen hS hC hI hF hT hexec
  have hsame : SamePacket p s.pkt := ⟨htype, hcid, htrl, htsi, htsf, hcount, hoff, hlen, hS, hC, hI, hF, hT⟩
  rw [exec_encPkt_eq] at hexec ⊢
  cases hexec
  rw [hsame.encPktError_congr, hsame.encPktDone_congr]
  cases encPktError s <;> rfl

/-- Settles O20: the packet of the committed registers is the decoded bytes, byte 0 without its reserved bits. -/
theorem encPktInvertsDecPkt : Obligations.EncPktInvertsDecPkt := by
  intro s t c hexec hok hroom
  obtain ⟨herr, rfl⟩ := exec_decPkt_ok hexec hok
  obtain ⟨hview, hoverhead⟩ := bounds_of_decPktError_eq_none herr
  have hnone : encPktError { decPktDone s with outCap := c } = none := encPktError_parsedPacket rfl rfl herr hroom
  have hpacket := wirePacket_parsedPacket (t := { decPktDone s with outCap := c }) rfl rfl hoverhead
  refine ⟨_, exec_encPkt_of_none hnone, statusOk_packStatus .., assembledBytes_parsedPacket hoverhead, rfl, fun a ha => ?_⟩
  replace ha : a < (parsedPacket s).totalBytes := ha
  rw [encPktDone_outByte, hpacket]
  cases a with
  | zero => rfl
  | succ k =>
    have hk : k < (parsedPacket s).totalBytes - 1 := by omega
    simp [inBytes, hk, Nat.add_comm]

/-- Settles O21: a view that holds the packet emitted holds each present field at its offset, where DEC_PKT reads it. -/
theorem decPktInvertsEncPkt : Obligations.DecPktInvertsEncPkt := by
  intro s t u htype hexec hok hview hbytes
  obtain ⟨herr, rfl⟩ := exec_encPkt_ok hexec hok
  obtain ⟨hwhole, hsize, -, -⟩ := (encPktError_eq_none_iff s).mp herr
  have hholds : u.Holds 0 (wirePacket s (assembledWords s.pkt)) := by
    rw [holds_iff_getElem]
    intro k hk
    rw [Nat.zero_add, hbytes k (hk.trans_eq (wirePacket_length_eq_assembledBytes s _)), encPktDone_outByte,
      List.getD_eq_getElem _ _ hk]
  rw [wirePacket_eq_header_append, holds_append] at hholds
  obtain ⟨hheader, hbody⟩ := hholds
  have hcarries : CarriesBody u s := holds_wireBody_iff.mp hbody
  have hparsed := parsedPacket_of_holds hwhole hsize hheader hcarries
  have htotal : (parsedPacket u).totalBytes = assembledBytes s.pkt := by
    rw [hparsed, totalBytes_readBack hwhole hsize, assembledBytes_eq]
  refine ⟨decPktDone u, exec_decPkt_of_none (decPktError_of_readBack hparsed htype hwhole hsize hview),
    statusOk_packStatus .., htotal, ?_, hparsed, fun k hk => ?_⟩
  · exact Nat.sub_eq_zero_of_le (hview.trans htotal.symm).le
  · rw [decPktDone_pkt, hparsed, ← hcarries.payload k hk, offPayload_eq]
    rfl

end Sys2Proof.Machine
end

section
/-! PROOFS. The table of command codes (30_encoding.md R115), the reserved codes' failure (46_control_commands.md R232), and the index map
as it reads (10_state.md R34, R35). -/

namespace Sys2Proof

/-! ## The command codes -/

/-- The instruction of each command code, in the order of 30_encoding.md R115. -/
def commandTable : List Instr :=
  [.nop, .decHdr, .encHdr, .decCid, .encCid, .decTrl, .encTrl, .decPkt, .encPkt, .reserved9, .reservedA, .reservedB, .reservedC,
    .reservedD, .reservedE, .reservedF]

theorem decodeCommand_eq_commandTable (v : Nat) : decodeCommand v = commandTable.getD (v % 16) .nop := by
  have hcode : v % 16 < 16 := Nat.mod_lt v (by decide)
  unfold decodeCommand
  generalize v % 16 = code at hcode ⊢
  interval_cases code <;> rfl

/-- The bits above the low byte of a value written to CMD are among those the dispatch ignores (R115). -/
theorem decodeCommand_mod_byte (v : Nat) : decodeCommand (v % 256) = decodeCommand v := by
  have hcode : v % 256 % 16 = v % 16 := Nat.mod_mod_of_dvd v (by decide)
  rw [decodeCommand_eq_commandTable, hcode, ← decodeCommand_eq_commandTable]

/-- The one-byte form of a command decodes to the command that the value written selects. -/
theorem decode_command_byte (v : Nat) : decode .command [BitVec.ofNat 8 v] = .ok (decodeCommand v, []) := by
  have hbyte : beNat [BitVec.ofNat 8 v] = v % 256 := by simp [beNat]
  rw [decode_of_enough le_rfl, ← decodeCommand_mod_byte v, ← hbyte]
  rfl

end Sys2Proof

namespace Sys2Proof.Machine

theorem step_writeCmd {s : State} {v : Nat} {rest : List Txn} (h : s.host = .writeReg 0x00 v :: rest) :
    step s = exec (decodeCommand v) { s with host := rest } := step_cons h

/-! ## The reserved codes -/

/-- STATUS after IllegalCommand: LAST_OP stands above ERR_KIND 7 and DONE (10_state.md R27). -/
theorem packStatus_illegalCommand (op : BitVec 4) :
    packStatus false (errCode .illegalCommand) 0#2 op = 0#18 ++ op ++ 0x071#10 := by
  revert op
  decide

theorem reservedCode_eq_failed (code : BitVec 4) (s : State) :
    reservedCode code s = s.failed (0#18 ++ code ++ 0x071#10) code.toNat := by
  rw [reservedCode, raise_some _ (start_seq code s), fail_eq_failed, ← packStatus_illegalCommand]
  rfl

/-! ## The index map as it reads -/

/-- What each index up to 0x1F reads: the registers of 10_state.md R34 in order, 0 for CMD and the unmapped 0x08 to 0x0F (R35). -/
def registerValues (s : State) : List Nat :=
  [0, s.status.toNat, s.errInfo, s.xferLen, s.remLen, s.inLen, s.outCap, (present s.pkt).toNat, 0, 0, 0, 0, 0, 0, 0, 0,
    s.pkt.pktType.toNat, s.pkt.cidPresent.toNat, s.pkt.trlPresent.toNat, s.pkt.tsiKind.toNat, s.pkt.tsfKind.toNat,
    s.pkt.pktCount.toNat, s.pkt.pktSize.toNat, s.pkt.streamId.toNat, s.pkt.classOui.toNat, s.pkt.classIcc.toNat,
    s.pkt.classPcc.toNat, s.pkt.tsiVal.toNat, s.pkt.tsfVal.toNat, s.pkt.payOff, s.pkt.payLen, s.pkt.trailer.toNat]

theorem readIndex_eq_registerValues (s : State) (index : Nat) : readIndex s index = (registerValues s).getD index 0 := by
  by_cases hindex : index ≤ 0x1F
  · interval_cases index <;> rfl
  · have habove : 0x1F < index := not_le.mp hindex
    rw [readIndex, regOfIndex_unmapped (.inr habove), List.getD_eq_default _ _ habove]

end Sys2Proof.Machine
end

section
/-! PROOFS. The statements of 46_control_commands.md settled. -/

namespace Sys2Proof.Machine

/-- Settles O1: a write of CMD runs the decoded command, which the table gives for the code. -/
theorem cmdWriteRunsTheCommandOfItsCode : Obligations.CmdWriteRunsTheCommandOfItsCode := fun _ v _ h =>
  (step_writeCmd h).trans (congrArg (exec · _) (decodeCommand_eq_commandTable v))

/-- Settles O2: the low byte of the value decodes to the command that the write runs. -/
theorem stepRunsTheDecodedInstruction : Obligations.StepRunsTheDecodedInstruction := by
  intro s v rest i bs h hdecode _
  obtain ⟨rfl, -⟩ : decodeCommand v = i ∧ [] = bs := by
    rw [decode_command_byte] at hdecode
    exact Prod.mk.inj (Except.ok.inj hdecode)
  exact step_writeCmd h

/-- Settles O4: the meaning of NOP is to answer the state it is given. -/
theorem nopChangesNoState : Obligations.NopChangesNoState := fun _ => rfl

/-- Settles O5: the seven codes are one meaning, which raises IllegalCommand under the code. -/
theorem reservedCodesFailWithIllegalCommand : Obligations.ReservedCodesFailWithIllegalCommand := by
  intro s
  have hfails (code : BitVec 4) := congrArg (Host.Outcome.next (φ := Fault) (ρ := Refusal)) (reservedCode_eq_failed code s)
  exact ⟨hfails 9#4, hfails 10#4, hfails 11#4, hfails 12#4, hfails 13#4, hfails 14#4, hfails 15#4⟩

/-- Settles O6: every instruction is a function from state to state. -/
theorem everyInstructionCompletes : Obligations.EveryInstructionCompletes := by
  intro i s
  obtain ⟨k, -, hk⟩ := exec_viewOnly i
  exact ⟨k s, hk s⟩

/-- Settles O43: a register read takes the value of its index and touches nothing else but the host's list. -/
theorem hostReadReturnsTheRegister : Obligations.HostReadReturnsTheRegister := by
  intro s index rest h
  rw [step_cons h, transact, readIndex_eq_registerValues]
  rfl

end Sys2Proof.Machine
end

section
/-! PROOFS. How every command but NOP ends: which errors it raises and the length of view behind an InsufficientInput (60_exceptions.md
R242, R246, R260), and the bytes it transfers when it succeeds (R247, 10_state.md R29). -/

namespace Sys2Proof.Machine

/-! ## The errors of each command -/

/-- The error kinds of each command (60_exceptions.md R260). -/
def errorKinds : Instr → List ErrKind
  | .decHdr => [.invalidEnumCode, .insufficientInput]
  | .decCid | .decTrl => [.insufficientInput]
  | .encHdr | .encCid | .encTrl => [.outputTooSmall]
  | .decPkt => [.invalidEnumCode, .insufficientInput, .integerConversionOverflow]
  | .encPkt => [.insufficientInput, .outputTooSmall, .integerConversionOverflow]
  | _ => [.illegalCommand]

/-- The length of view below which a command raises InsufficientInput (60_exceptions.md R242): DEC_PKT asks for the header while it is
not whole, and then for the packet the header declares. -/
def wantedBytes (s : State) : Instr → Nat
  | .decHdr | .decTrl => 4
  | .decCid => 8
  | .decPkt => if s.inLen < 4 then 4 else (parsedPacket s).totalBytes
  | .encPkt => s.pkt.payOff + s.pkt.payLen
  | _ => 0

/-- What holds of an error that a command raises: its kind is one of the command's, and InsufficientInput tells how far the view falls
short of the bytes wanted. -/
structure Raised (i : Instr) (s : State) (e : CmdError) : Prop where
  kind : e.kind ∈ errorKinds i
  shortfall : e.kind = .insufficientInput → s.inLen < wantedBytes s i ∧ e.info = wantedBytes s i - s.inLen

theorem Raised.ofShortfall {i : Instr} {s : State} {n : Nat} (hkind : .insufficientInput ∈ errorKinds i)
    (hwanted : wantedBytes s i = n) (hshort : s.inLen < n) : Raised i s (insufficientInput (n - s.inLen)) :=
  ⟨hkind, fun _ => hwanted.symm ▸ ⟨hshort, rfl⟩⟩

theorem Raised.ofOther {i : Instr} {s : State} {e : CmdError} (k : ErrKind) (hkind : k ∈ errorKinds i)
    (hother : k ≠ .insufficientInput) (he : e.kind = k := by rfl) : Raised i s e :=
  ⟨he ▸ hkind, fun h => absurd (he.symm.trans h) hother⟩

theorem raised_of_decPktError {s : State} {e : CmdError} (h : decPktError s = some e) : Raised .decPkt s e := by
  simp only [decPktError] at h
  split_ifs at h with hheader htype htotal hoverhead <;> cases h
  · exact .ofShortfall (by decide) (if_pos hheader) hheader
  · exact .ofOther .invalidEnumCode (by decide) (by decide)
  · exact .ofShortfall (by decide) (if_neg hheader) htotal
  · exact .ofOther .integerConversionOverflow (by decide) (by decide)

theorem raised_of_encPktError {s : State} {e : CmdError} (h : encPktError s = some e) : Raised .encPkt s e := by
  simp only [encPktError] at h
  split_ifs at h with hwords hsize hview hroom <;> cases h
  · exact .ofOther .integerConversionOverflow (by decide) (by decide)
  · exact .ofOther .integerConversionOverflow (by decide) (by decide)
  · exact .ofShortfall (by decide) rfl hview
  · exact .ofOther .outputTooSmall (by decide) (by decide)

/-! ## The outcome of each command -/

/-- The bytes a codec command consumes or writes, by the packet registers it leaves (10_state.md R29). -/
def transferBytes (p : Packet) : Instr → Nat
  | .decHdr | .encHdr | .decTrl | .encTrl => 4
  | .decCid | .encCid => 8
  | .decPkt => p.totalBytes
  | .encPkt => assembledBytes p
  | _ => 0

/-- The three ways a command ends, under its own code: with an error it raises, as a decode of bytes inside the view, or as an encode of
bytes within OUT_CAP. -/
inductive CommandOutcome (i : Instr) (s : State) : State → Prop where
  | failed (e : CmdError) (he : Raised i s e) : CommandOutcome i s (fail (commandCode i) e s)
  | decoded (p : Packet) (hdec : isDecode i = true) (hin : transferBytes p i ≤ s.inLen) :
      CommandOutcome i s (succeed (commandCode i) (transferBytes p i) (s.inLen - transferBytes p i) { s with pkt := p })
  | encoded (m : Memory) (henc : isEncode i = true) (hroom : transferBytes s.pkt i ≤ s.outCap) :
      CommandOutcome i s (succeed (commandCode i) (transferBytes s.pkt i) 0 { s with obuf := m })

theorem decHdr_outcome (s : State) : CommandOutcome .decHdr s (decHdr s) := by
  rw [decHdr_eq]
  split
  next hshort => exact .failed _ (.ofShortfall (by decide) rfl hshort)
  next hin =>
    split
    next => exact .decoded _ rfl (not_lt.mp hin)
    next => exact .failed _ (.ofOther .invalidEnumCode (by decide) (by decide))

theorem decCid_outcome (s : State) : CommandOutcome .decCid s (decCid s) := by
  rw [decCid_eq]
  split
  next hshort => exact .failed _ (.ofShortfall (by decide) rfl hshort)
  next hin => exact .decoded _ rfl (not_lt.mp hin)

theorem decTrl_outcome (s : State) : CommandOutcome .decTrl s (decTrl s) := by
  rw [decTrl_eq]
  split
  next hshort => exact .failed _ (.ofShortfall (by decide) rfl hshort)
  next hin => exact .decoded _ rfl (not_lt.mp hin)

theorem decPkt_outcome (s : State) : CommandOutcome .decPkt s (decPkt s) := by
  rw [decPkt_eq]
  cases herr : decPktError s with
  | none => exact .decoded (parsedPacket s) rfl (bounds_of_decPktError_eq_none herr).1
  | some e => exact .failed e (raised_of_decPktError herr)

/-- A single-field encode has one test, of the capacity for its field. -/
theorem CommandOutcome.ofField {i : Instr} {s t : State} (m : Memory) (henc : isEncode i = true)
    (hkind : .outputTooSmall ∈ errorKinds i)
    (h : t = if s.outCap < transferBytes s.pkt i then fail (commandCode i) outputTooSmall s
      else succeed (commandCode i) (transferBytes s.pkt i) 0 { s with obuf := m }) : CommandOutcome i s t := by
  rw [h]
  split
  next => exact .failed _ (.ofOther .outputTooSmall hkind (by decide))
  next hroom => exact .encoded m henc (not_lt.mp hroom)

theorem encPkt_outcome (s : State) : CommandOutcome .encPkt s (encPkt s) := by
  have hexec : encPkt s = _ := Host.Outcome.next.inj (exec_encPkt_eq s)
  rw [hexec]
  cases herr : encPktError s with
  | none =>
    obtain ⟨-, -, -, hroom⟩ := (encPktError_eq_none_iff s).mp herr
    exact .encoded _ rfl hroom
  | some e => exact .failed e (raised_of_encPktError herr)

/-- Every command but NOP runs to one of its outcomes (46_control_commands.md R230 to R232). -/
theorem exec_command_outcome {i : Instr} (hcmd : i.position = .command) (hnop : i ≠ .nop) (s : State) :
    ∃ t, exec i s = .next t ∧ CommandOutcome i s t := by
  cases i with
  | nop => exact absurd rfl hnop
  | decHdr => exact ⟨_, rfl, decHdr_outcome s⟩
  | encHdr => exact ⟨_, rfl, .ofField _ rfl (by decide) (encHdr_eq s)⟩
  | decCid => exact ⟨_, rfl, decCid_outcome s⟩
  | encCid => exact ⟨_, rfl, .ofField _ rfl (by decide) (encCid_eq s)⟩
  | decTrl => exact ⟨_, rfl, decTrl_outcome s⟩
  | encTrl => exact ⟨_, rfl, .ofField _ rfl (by decide) (encTrl_eq s)⟩
  | decPkt => exact ⟨_, rfl, decPkt_outcome s⟩
  | encPkt => exact ⟨_, rfl, encPkt_outcome s⟩
  | reserved9 | reservedA | reservedB | reservedC | reservedD | reservedE | reservedF =>
    exact ⟨_, rfl, .failed _ (.ofOther .illegalCommand (by decide) (by decide))⟩
  | _ => cases hcmd

/-- A command that ends with OK = 0 has raised an error. -/
theorem exec_command_failed {i : Instr} {s t : State} (hcmd : i.position = .command) (hnop : i ≠ .nop)
    (h : exec i s = .next t) (hfail : statusOk t.status = false) : ∃ e, Raised i s e ∧ t = fail (commandCode i) e s := by
  obtain ⟨u, hu, hend⟩ := exec_command_outcome hcmd hnop s
  obtain rfl : u = t := Host.Outcome.next.inj (hu.symm.trans h)
  cases hend with
  | failed e he => exact ⟨e, he, rfl⟩
  | decoded | encoded => simp at hfail

/-- A decode or an encode is a command, and not NOP. -/
theorem command_of_codec {i : Instr} (h : isDecode i = true ∨ isEncode i = true) : i.position = .command ∧ i ≠ .nop := by
  cases i with
  | decHdr | decCid | decTrl | decPkt | encHdr | encCid | encTrl | encPkt => decide
  | _ => obtain h | h := h <;> cases h

theorem isEncode_of_isDecode {i : Instr} (h : isDecode i = true) : isEncode i = false := by
  cases i with
  | decHdr | decCid | decTrl | decPkt => rfl
  | _ => cases h

/-- STATUS of a success: LAST_OP stands above OK and DONE (10_state.md R27). -/
theorem packStatus_success (op : BitVec 4) : packStatus true 0#3 0#2 op = 0#18 ++ op ++ 0x003#10 := by
  revert op
  decide

/-! ## A command issued again on a longer view -/

theorem errCode_eq_two_iff (k : ErrKind) : errCode k = 2#3 ↔ k = .insufficientInput := by
  cases k <;> decide

theorem totalBytes_parsedPacket (s : State) : (parsedPacket s).totalBytes = 4 * ((wordAt s 0).toNat % 2 ^ 16) :=
  congrArg (4 * ·) (hdrSize_toNat _)

/-- A longer view that keeps the bytes already there leaves the bytes wanted as they were, but for a DEC_PKT that had not seen its
header. -/
theorem wantedBytes_longer {i : Instr} {s r : State} (hpkt : r.pkt = s.pkt) (hlonger : s.inLen ≤ r.inLen)
    (hview : ∀ a, a < s.inLen → r.inByte a = s.inByte a) (hheader : i = .decPkt → 4 ≤ s.inLen) :
    wantedBytes r i = wantedBytes s i := by
  cases i with
  | decPkt =>
    have hin := hheader rfl
    have hword : wordAt r 0 = wordAt s 0 := wordAt_congr r s 0 0 fun k hk => hview _ (by omega)
    rw [wantedBytes, if_neg (by omega), totalBytes_parsedPacket, hword, ← totalBytes_parsedPacket, wantedBytes,
      if_neg (by omega)]
  | encPkt => rw [wantedBytes, hpkt, wantedBytes]
  | _ => rfl

end Sys2Proof.Machine
end

section
/-! PROOFS. The statements of 60_exceptions.md settled. -/

namespace Sys2Proof.Machine

/-- Settles O27: a failed command has raised an error, and the end of a command at an error writes the status group only. -/
theorem failureChangesOnlyTheStatusGroup : Obligations.FailureChangesOnlyTheStatusGroup := by
  intro i s t hcmd hnop hexec hfail
  obtain ⟨e, -, rfl⟩ := exec_command_failed hcmd hnop hexec hfail
  obtain ⟨hkind, -, -⟩ := errCode_produced e.kind
  refine ⟨rfl, statusDone_packStatus .., statusLastOp_packStatus .., ?_, statusReserved_packStatus ..⟩
  rwa [fail_status, statusKind_packStatus]

/-- Settles O28: a successful command is a decode inside the view or an encode within OUT_CAP. -/
theorem successReportsItsTransfer : Obligations.SuccessReportsItsTransfer := by
  intro i s t hcodec hexec hok
  obtain ⟨hcmd, hnop⟩ := command_of_codec hcodec
  obtain ⟨u, hu, hend⟩ := exec_command_outcome hcmd hnop s
  obtain rfl : u = t := Host.Outcome.next.inj (hu.symm.trans hexec)
  cases hend with
  | failed e he => simp at hok
  | decoded p hdec hin =>
    refine ⟨packStatus_success _, rfl, ?_, ?_, ?_, ?_, fun _ => Nat.add_sub_cancel' hin, fun h => ?_⟩
    · rintro (rfl | rfl | rfl | rfl) <;> rfl
    · rintro (rfl | rfl) <;> rfl
    · rintro rfl; rfl
    · rintro rfl; cases hdec
    · rw [isEncode_of_isDecode hdec] at h; cases h
  | encoded m henc hroom =>
    refine ⟨packStatus_success _, rfl, ?_, ?_, ?_, ?_, fun h => ?_, fun _ => ⟨rfl, hroom⟩⟩
    · rintro (rfl | rfl | rfl | rfl) <;> rfl
    · rintro (rfl | rfl) <;> rfl
    · rintro rfl; cases henc
    · rintro rfl; exact assembledBytes_eq s.pkt
    · rw [isEncode_of_isDecode h] at henc; cases henc

/-- Settles O29: ERR_KIND is the code of the error raised, whose kind is one of the command's. -/
theorem eachCommandRaisesOnlyItsKinds : Obligations.EachCommandRaisesOnlyItsKinds := by
  intro i s t hcmd hnop hexec hfail
  obtain ⟨e, he, rfl⟩ := exec_command_failed hcmd hnop hexec hfail
  have hkind : errCode e.kind ∈ (errorKinds i).map errCode := List.mem_map_of_mem he.kind
  rw [fail_status, statusKind_packStatus]
  cases i <;> exact hkind

/-- Settles O30: the view now holds the bytes that the check wanted, and only a DEC_PKT that sees its header for the first time wants
more. -/
theorem insufficientInputCheckPassesOnRetry : Obligations.InsufficientInputCheckPassesOnRetry := by
  intro i s t n m hcodec hexec hfail hkind hn hview retry
  obtain ⟨hcmd, hnop⟩ := command_of_codec (hcodec.imp_right fun h => h ▸ rfl)
  obtain ⟨e, he, rfl⟩ := exec_command_failed hcmd hnop hexec hfail
  rw [fail_status, statusKind_packStatus, errCode_eq_two_iff] at hkind
  obtain ⟨hshort, hinfo⟩ := he.shortfall hkind
  rw [fail_errInfo] at hn ⊢
  obtain ⟨u, hu, -⟩ := exec_command_outcome hcmd hnop retry
  refine ⟨by omega, u, hu, fun hfail' hkind' => ?_⟩
  obtain ⟨e', he', rfl⟩ := exec_command_failed hcmd hnop hu hfail'
  rw [fail_status, statusKind_packStatus, errCode_eq_two_iff] at hkind'
  obtain ⟨hshort', hinfo'⟩ := he'.shortfall hkind'
  have hlen : retry.inLen = n := rfl
  by_cases hheader : i = .decPkt → 4 ≤ s.inLen
  · have hsame : wantedBytes retry i = wantedBytes s i := wantedBytes_longer rfl (by omega) hview hheader
    omega
  · obtain ⟨rfl, hunseen⟩ := Classical.not_imp.mp hheader
    have hwanted : wantedBytes s .decPkt = 4 := if_pos (not_le.mp hunseen)
    have hseen : 4 ≤ n := by omega
    have hwanted' : wantedBytes retry .decPkt = 4 * ((wordAt retry 0).toNat % 2 ^ 16) :=
      (if_neg hseen.not_gt).trans (totalBytes_parsedPacket retry)
    rw [hwanted', hlen] at hshort' hinfo'
    exact ⟨rfl, not_le.mp hunseen, hseen, hshort', hinfo'⟩

/-- Settles O3: with an empty list of transactions the step answers the state itself. -/
theorem idleStepHoldsTheState : Obligations.IdleStepHoldsTheState := fun _ => step_nil

end Sys2Proof.Machine
end

section
/-! PROOFS. What the registers read after a reset (70_reset_and_hazards.md R270, R271), and how the codec commands end on an empty view and
without room for output (R273). -/

namespace Sys2Proof.Machine

/-! ## Reset -/

theorem present_zero : present Packet.zero = 0#5 := by decide

/-- Every stored register is cleared (R271), and PRESENT, which stores nothing (10_state.md R26), reads 0 with them. -/
theorem readReg_resetBlock (s : State) (r : Reg) : readReg (resetBlock s) r = 0 := by
  cases r with
  | present => rw [readReg, resetBlock_pkt, present_zero]; rfl
  | _ => rfl

/-- A reset that cuts a command is the reset of a block whose OBUF is no longer known (R270). -/
theorem resetCut_eq_resetBlock (s : State) : resetCut s = resetBlock { s with obuf := s.obuf.scramble } := rfl

theorem readReg_resetCut (s : State) (r : Reg) : readReg (resetCut s) r = 0 := by
  rw [resetCut_eq_resetBlock, readReg_resetBlock]

/-! ## The codec commands on an empty view and without room -/

/-- The first test of every decode is of the view, and DEC_CID alone wants eight bytes there. -/
theorem decodes_fail_of_empty_view {s : State} (hview : s.inLen = 0) :
    exec .decHdr s = .next (s.failed 0x0421#32 4) ∧ exec .decCid s = .next (s.failed 0x0C21#32 8) ∧
    exec .decTrl s = .next (s.failed 0x1421#32 4) ∧ exec .decPkt s = .next (s.failed 0x1C21#32 4) := by
  have hhdr := decHdrDecodesTheHeaderWord s
  have hcid := decCidDecodesTheClassIdentifier s
  have htrl := decTrlDecodesTheTrailerWord s
  have hpkt := decPktParsesByOffsets s
  simp only [hview] at hhdr hcid htrl hpkt
  exact ⟨hhdr, hcid, htrl, hpkt⟩

theorem field_encodes_fail_without_room {s : State} (hroom : s.outCap = 0) :
    exec .encHdr s = .next (s.failed 0x0831#32 0) ∧ exec .encCid s = .next (s.failed 0x1031#32 0) ∧
    exec .encTrl s = .next (s.failed 0x1831#32 0) := by
  obtain ⟨hhdr, -⟩ := encHdrWritesTheHeaderBytes s
  obtain ⟨hcid, -⟩ := encCidWritesTheClassIdentifier s
  obtain ⟨htrl, -⟩ := encTrlWritesTheTrailerWord s
  exact ⟨hhdr (by omega), hcid (by omega), htrl (by omega)⟩

/-- The packet of a cleared register file is a bare header: it passes the other tests of ENC_PKT and wants four bytes of room. -/
theorem encPkt_zero_fails_without_room {s : State} (hpkt : s.pkt = Packet.zero) (hroom : s.outCap = 0) :
    exec .encPkt s = .next (s.failed 0x2031#32 0) := by
  have hsize : shapeOverhead Packet.zero = 4 := rfl
  have hlen : Packet.zero.payLen = 0 := rfl
  have hoff : Packet.zero.payOff = 0 := rfl
  obtain ⟨-, -, -, hfails, -⟩ := encPktEmitsThePacket s
  rw [hpkt] at hfails
  exact hfails (by omega) (by omega) (by omega) (by omega)

end Sys2Proof.Machine
end

section
/-! PROOFS. The statements of 70_reset_and_hazards.md settled. -/

namespace Sys2Proof.Machine

/-- Settles O45: the reset input clears the registers and touches neither buffer. -/
theorem resetClearsTheRegistersAndKeepsTheBuffers : Obligations.ResetClearsTheRegistersAndKeepsTheBuffers := by
  intro s rest h
  exact ⟨resetBlock { s with host := rest }, step_cons h, readReg_resetBlock _, rfl, rfl, rfl, fun _ => ⟨rfl, rfl⟩⟩

/-- Settles O46: whichever command is cut, the registers are cleared and IBUF is not touched. -/
theorem resetDuringACommandClearsTheRegistersAndKeepsIbuf :
    Obligations.ResetDuringACommandClearsTheRegistersAndKeepsIbuf := by
  intro s v rest h
  exact ⟨resetCut { s with host := rest }, step_cons h, readReg_resetCut _, rfl, rfl, rfl, fun _ => rfl⟩

/-- Settles O47: reset leaves IN_LEN and OUT_CAP 0, an empty view and no room. -/
theorem decodesAndEncodesFailStraightAfterReset : Obligations.DecodesAndEncodesFailStraightAfterReset := by
  obtain ⟨hdecHdr, hdecCid, hdecTrl, hdecPkt⟩ := decodes_fail_of_empty_view (s := State.reset) rfl
  obtain ⟨hencHdr, hencCid, hencTrl⟩ := field_encodes_fail_without_room (s := State.reset) rfl
  exact ⟨hdecHdr, hdecCid, hdecTrl, hdecPkt, hencHdr, hencCid, hencTrl, encPkt_zero_fails_without_room rfl rfl⟩

/-- Settles O48: the event has no meaning, whatever the command and the state. -/
theorem foreignWriteDuringACommandIsRefused : Obligations.ForeignWriteDuringACommandIsRefused := fun _ _ _ h => step_cons h

/-- Settles O50: every register is 0 and neither buffer lists a cell. -/
theorem resetHasTheInvariant : Obligations.ResetHasTheInvariant := by
  have hpos : 0 < 2 ^ State.reset.lenW := Nat.two_pow_pos _
  exact ⟨by decide, Nat.zero_le 5, statusLegal_zero, ⟨hpos, hpos, hpos, hpos, hpos, hpos, Nat.two_pow_pos _⟩,
    ⟨rfl, rfl, rfl, rfl⟩, rfl⟩

end Sys2Proof.Machine
end
